-- ==== Sys2Proof/Word.lean ====
section
/-! DEFINITION. The word types of the DFD Engine: the widths the spec gives its inputs, outputs and registers
(00_scope R6, 10_state R26). -/

namespace Sys2Proof

/-- One input sample component, or one byte of the output stream: 8 bits (30_encoding R90, 20_memory R61). -/
abbrev Byte := BitVec 8

/-- A control register as the host reads and writes it: 32 bits (10_state R26). -/
abbrev Word := BitVec 32

/-- One output sample: 16 bits, two's complement (30_encoding R92). -/
abbrev Sample := BitVec 16

end Sys2Proof
end

