-- ==== Sys2Proof/Syntax.lean ====
section
/-! DEFINITION. The ten operations of `DFD-OPS 1` (00_scope R2), one constructor per row of spec/opcode_table.json. -/

namespace Sys2Proof

/-- An operation. INIT and RUN are host commands; the other eight are stage operations of the sequencer (00_scope R14,
30_encoding R95). Only INIT has an operand field. -/
inductive Instr where
  /-- INIT `L`: the chunk byte length, the 28-bit unsigned ARG field (30_encoding R96). -/
  | init (len : BitVec 28)
  /-- RUN (30_encoding R97). -/
  | run
  /-- FETCH (44_driver R212). -/
  | fetch
  /-- DEMOD (41_demod R140). -/
  | demod
  /-- RFFT (42_lpf R160). -/
  | rfft
  /-- MASK (42_lpf R165). -/
  | mask
  /-- IRFFT (42_lpf R172). -/
  | irfft
  /-- DECIM (43_decim R190). -/
  | decim
  /-- EMIT (43_decim R197). -/
  | emit
  /-- RELEASE (44_driver R214). -/
  | release
deriving DecidableEq, Repr

end Sys2Proof
end

