-- ==== Sys2Proof/WellFormed.lean ====
section
/-! DEFINITION. Which operation may come from whom (60_exceptions R276, 30_encoding R103). The operand of INIT needs no check:
every value of the 28-bit ARG field is an INIT (30_encoding R96), and its type admits no other value. -/

namespace Sys2Proof

/-- The two agents that start operations (00_scope R14): the host through CMD, the sequencer through STAGE. -/
inductive Issuer where
  | host
  | sequencer
deriving DecidableEq, Repr

/-- "issued by", the column of 30_encoding R95. -/
def Instr.issuer : Instr → Issuer
  | .init _ => .host
  | .run => .host
  | .fetch => .sequencer
  | .demod => .sequencer
  | .rfft => .sequencer
  | .mask => .sequencer
  | .irfft => .sequencer
  | .decim => .sequencer
  | .emit => .sequencer
  | .release => .sequencer

/-- An operation is well-formed for an issuer when that issuer may issue it: the host INIT and RUN, the sequencer the eight stage
operations and nothing else (60_exceptions R276, 30_encoding R103). -/
def Instr.wellFormedFor (who : Issuer) (i : Instr) : Bool :=
  i.issuer == who

end Sys2Proof
end

