-- ==== Sys2Proof/Decode.lean ====
section
/-! DEFINITION. The decoder of host command words (format H) and of stage codes (format S), then the encoder, both from
30_encoding R94 to R105. Decoding is total and rejects by name. -/

namespace Sys2Proof

/-- Why a word is not an operation (30_encoding R102; 93 U9, U12). A command word refused so is refused to the host with CMD_ERR;
a STAGE code refused so is never held while RUNNING. -/
inductive DecodeError where
  /-- OP is 0x0 or 0xB to 0xF. -/
  | reservedCode (op : BitVec 4)
  /-- The host wrote a stage operation's code, 0x3 to 0xA. -/
  | stageFromHost (op : BitVec 4)
  /-- OP is RUN's and ARG is not 0. -/
  | runOperand (arg : BitVec 28)
  /-- STAGE holds INIT's or RUN's code. -/
  | commandInStage (code : BitVec 4)
deriving DecidableEq, Repr

/-- OP, bits [31:28] of a command word (30_encoding R94). -/
def opField (w : Word) : BitVec 4 := w.extractLsb' 28 4

/-- ARG, bits [27:0] of a command word (30_encoding R94). -/
def argField (w : Word) : BitVec 28 := w.extractLsb' 0 28

/-- The operation a host command word stands for (30_encoding R95 to R97, R102, R103). -/
def decodeCommand (w : Word) : Except DecodeError Instr :=
  match (opField w).toNat with
  | 1 => .ok (.init (argField w))
  | 2 => if argField w = 0 then .ok .run else .error (.runOperand (argField w))
  | 3 | 4 | 5 | 6 | 7 | 8 | 9 | 10 => .error (.stageFromHost (opField w))
  | _ => .error (.reservedCode (opField w))

/-- The stage operation a STAGE code stands for (30_encoding R98, 10_state R24). -/
def decodeStage (c : BitVec 4) : Except DecodeError Instr :=
  match c.toNat with
  | 3 => .ok .fetch
  | 4 => .ok .demod
  | 5 => .ok .rfft
  | 6 => .ok .mask
  | 7 => .ok .irfft
  | 8 => .ok .decim
  | 9 => .ok .emit
  | 10 => .ok .release
  | 1 | 2 => .error (.commandInStage c)
  | _ => .error (.reservedCode c)

/-- An encoded operation: a 32-bit command word (format H) or a 4-bit stage code (format S); there is no third format and no
variable length (30_encoding R94, R98, R105). -/
inductive Encoded where
  | command (w : Word)
  | stage (code : BitVec 4)
deriving DecidableEq, Repr

/-- Decoding of either format. -/
def decode : Encoded → Except DecodeError Instr
  | .command w => decodeCommand w
  | .stage c => decodeStage c

/-- The operation codes of 30_encoding R95. -/
def opcode : Instr → BitVec 4
  | .init _ => 0x1#4
  | .run => 0x2#4
  | .fetch => 0x3#4
  | .demod => 0x4#4
  | .rfft => 0x5#4
  | .mask => 0x6#4
  | .irfft => 0x7#4
  | .decim => 0x8#4
  | .emit => 0x9#4
  | .release => 0xA#4

/-- The encoding of an operation: OP and ARG side by side in format H, the bare code in format S (30_encoding R94 to R98). -/
def encode (i : Instr) : Encoded :=
  match i with
  | .init len => .command (opcode (.init len) ++ len)
  | .run => .command (opcode .run ++ 0#28)
  | .fetch => .stage (opcode .fetch)
  | .demod => .stage (opcode .demod)
  | .rfft => .stage (opcode .rfft)
  | .mask => .stage (opcode .mask)
  | .irfft => .stage (opcode .irfft)
  | .decim => .stage (opcode .decim)
  | .emit => .stage (opcode .emit)
  | .release => .stage (opcode .release)

/-- The operation that the bits of an opcode-table row stand for: 32 bits are a command word; 4 bits, or the byte that carries
them with its upper half 0, are a stage code. -/
def decodeTableWord (nbits w : Nat) : Option Instr :=
  if nbits = 32 then
    match decodeCommand (BitVec.ofNat 32 w) with
    | .ok i => some i
    | .error _ => none
  else if nbits ≤ 8 ∧ w < 16 then
    match decodeStage (BitVec.ofNat 4 w) with
    | .ok i => some i
    | .error _ => none
  else none

end Sys2Proof
end

