-- ==== Sys2Proof/Machine/Operands.lean ====
section
/-! DEFINITION. Operand assembly and the exact integer side of the datapath: the hardwired constants (00_scope R6), the derived
sizes (R7), the input components and the complex product (45_arithmetic R230, R231), the mask's bin selection (42_lpf R165),
the narrowing (45_arithmetic R235) and the output byte order (20_memory R61). -/

namespace Sys2Proof.Machine

/-- BIAS (00_scope R6). -/
def bias : Int := 127

/-- CUTOFF_DIV (00_scope R6). -/
def cutoffDiv : Nat := 14

/-- STRIDE (00_scope R6). -/
def stride : Nat := 5

/-- SCALE (00_scope R6). -/
def ampScale : Nat := 10000

/-- `N = L / 2` (00_scope R7; 30_encoding R101). -/
def sizeN (len : Nat) : Nat := len / 2

/-- `NSPEC = floor(N / 2) + 1` (00_scope R7). -/
def specLen (n : Nat) : Nat := n / 2 + 1

/-- `CUTOFF = floor(N / 14)` (00_scope R7, 42_lpf R170). -/
def cutoffOf (n : Nat) : Nat := n / cutoffDiv

/-- `NOUT = floor((N - 1) / 5) + 1` (00_scope R7, 43_decim R191). -/
def noutOf (n : Nat) : Nat := (n - 1) / stride + 1

/-- The signed component of an input byte: `RAW - 127`, an integer that does not wrap (30_encoding R101, 45_arithmetic R230). -/
def component (raw : Byte) : Int := (raw.toNat : Int) - bias

/-- A chunk's bytes as complex samples: pair `n` is `IQBUF[2n] - 127`, `IQBUF[2n+1] - 127` (41_demod R141, 30_encoding R91). -/
def samplesOf : List Byte → List (Int × Int)
  | i :: q :: rest => (component i, component q) :: samplesOf rest
  | _ => []

/-- `Re(s * conj(previous_s))` for `s = a + jb`, `previous_s = c + jd` (41_demod R142). -/
def productRe (a b c d : Int) : Int := a * c + b * d

/-- `Im(s * conj(previous_s))` for `s = a + jb`, `previous_s = c + jd` (41_demod R142). -/
def productIm (a b c d : Int) : Int := b * c - a * d

/-- The complex sample carried to the next chunk: the last one of this chunk, or the old one where the chunk has none
(41_demod R140, R145). -/
def lastSample (prev : Int × Int) : List (Int × Int) → Int × Int
  | [] => prev
  | s :: rest => lastSample s rest

/-- Where MASK takes a bin of the Filtered Spectrum from (42_lpf R165). -/
inductive BinSource where
  /-- `SPEC[k]`, the passband. -/
  | pass (k : Nat)
  /-- `conj(SPEC[k])`, the mirror of the passband. -/
  | mirror (k : Nat)
  /-- `0 + j0`: bin 0, the stopband, its mirrors and the middle bins. -/
  | zero
deriving DecidableEq, Repr

/-- The source of bin `k` (42_lpf R165): `1 <= k <= CUTOFF - 1` passes, `N - CUTOFF + 1 <= k <= N - 1` mirrors bin `N - k`, the rest is
zero. The two comparisons are written without subtraction, so that `CUTOFF = 0` selects nothing. -/
def binSource (n cutoff k : Nat) : BinSource :=
  if 1 ≤ k ∧ k < cutoff then .pass k
  else if n < k + cutoff ∧ k < n then .mirror (n - k)
  else .zero

/-- The index of FSIG that output sample `m` is taken from: `5 m` (30_encoding R101, 43_decim R191). -/
def decimIndex (m : Nat) : Nat := stride * m

/-- `wrap16(z) = ((z + 32768) mod 65536) - 32768`, the `mod` giving 0 .. 65535 for every integer (45_arithmetic R235). -/
def wrap16 (z : Int) : Int := (z + 32768) % 65536 - 32768

/-- The 16-bit pattern of the narrowed integer: `OBUF[m] = wrap16(z)` (43_decim R194). -/
def narrow (z : Int) : Sample := BitVec.ofInt 16 (wrap16 z)

/-- The two bytes of an output sample, low byte first (20_memory R61). -/
def sampleBytes (u : Sample) : List Byte := [u.extractLsb' 0 8, u.extractLsb' 8 8]

/-- The bytes of an Output Chunk: its samples in increasing index, no framing (20_memory R61, 43_decim R197). -/
def serialise : List Sample → List Byte
  | [] => []
  | u :: rest => sampleBytes u ++ serialise rest

end Sys2Proof.Machine
end

