-- ==== Sys2Proof/Machine/Exact.lean ====
section
/-! DEFINITION. The reference numerics: the real-valued primitives over exact reals, as the rules state them (45_arithmetic
R236, R237; 42_lpf R160, R172; 43_decim R192, R193). The laws of an implementation's numerics are stated against these. -/

namespace Sys2Proof.Machine

/-- The range of the angle's arguments: integers of magnitude at most 32768 (45_arithmetic R231, R236). -/
abbrev ArgRange (im re : Int) : Prop := |im| ≤ 32768 ∧ |re| ≤ 32768

/-- `ARG2`, by the cases of 45_arithmetic R236; `(0, 0)` gives 0 (41_demod R147). -/
noncomputable def arg2Exact (im re : Int) : ℝ :=
  if re = 0 ∧ im = 0 then 0
  else if 0 < re then Real.arctan ((im : ℝ) / re)
  else if re < 0 then
    if 0 ≤ im then Real.arctan ((im : ℝ) / re) + Real.pi
    else Real.arctan ((im : ℝ) / re) - Real.pi
  else if 0 < im then Real.pi / 2
  else -(Real.pi / 2)

/-- "in radians, range (-pi, pi]" (41_demod R143): the value `-pi` is never produced (45_arithmetic R236). -/
theorem arg2Exact_range (im re : Int) : -Real.pi < arg2Exact im re ∧ arg2Exact im re ≤ Real.pi := by
  have hp := Real.pi_pos
  have hlo := Real.neg_pi_div_two_lt_arctan ((im : ℝ) / re)
  have hhi := Real.arctan_lt_pi_div_two ((im : ℝ) / re)
  unfold arg2Exact
  split_ifs with h0 hre hneg him him'
  · constructor <;> linarith
  · constructor <;> linarith
  · have hle : Real.arctan ((im : ℝ) / re) ≤ 0 :=
      Real.arctan_le_zero.mpr (div_nonpos_of_nonneg_of_nonpos (by exact_mod_cast him) (by exact_mod_cast hneg.le))
    constructor <;> linarith
  · have hpos : 0 < Real.arctan ((im : ℝ) / re) :=
      Real.arctan_pos.mpr (div_pos_of_neg_of_neg (by exact_mod_cast not_le.mp him) (by exact_mod_cast hneg))
    constructor <;> linarith
  · constructor <;> linarith
  · constructor <;> linarith

/-- `W(t) = cos(2 pi t) + j sin(2 pi t)` (42_lpf, opening paragraph). -/
noncomputable def unitRoot (t : ℝ) : ℂ := ⟨Real.cos (2 * Real.pi * t), Real.sin (2 * Real.pi * t)⟩

/-- The sum of 42_lpf R160: bin `k` of the forward transform, exponent sign `-`, not scaled. -/
noncomputable def dftExact (N : Nat) (x : Fin N → ℝ) (k : Nat) : ℂ :=
  ∑ n : Fin N, (x n : ℂ) * unitRoot (-((k : ℝ) * (n.val : ℝ) / (N : ℝ)))

/-- The sum of 42_lpf R172: sample `n` of the inverse transform, exponent sign `+`, without the factor `1/N`, its real part taken. -/
noncomputable def idftExact (N : Nat) (F : Fin N → ℂ) (n : Nat) : ℝ :=
  (∑ k : Fin N, F k * unitRoot ((k.val : ℝ) * (n : ℝ) / (N : ℝ))).re

/-- `trunc`: the integer part, toward zero (00_scope R10, 43_decim R193). -/
noncomputable def truncReal (x : ℝ) : Int :=
  if 0 ≤ x then ⌊x⌋ else -⌊-x⌋

/-- `trunc(y * 10000 / N)`, the quotient a real one (43_decim R192, R193). -/
noncomputable def scaleExact (N : Nat) (y : ℝ) : Int :=
  truncReal (y * (ampScale : ℝ) / (N : ℝ))

end Sys2Proof.Machine
end

