-- ==== Sys2Proof/Machine/Numerics.lean ====
section
/-! DEFINITION. The numerics parameter NUM of 45_arithmetic R238 with the laws of R239, and the whole-buffer functions of the
stage operations over any NUM (45_arithmetic R242): what each computes from its whole input to its whole output. -/

namespace Sys2Proof.Machine

/-- The primitives of NUM the machine computes with (45_arithmetic R238). `V` carries real values; a complex value is a pair. -/
structure NumOps (V : Type) where
  /-- The real 0. -/
  zero : V
  /-- Negation, the second half of `conj`. -/
  neg : V → V
  /-- `ARG2` on integers, imaginary part first. -/
  arg2 : Int → Int → V
  /-- The forward real-to-complex transform of size `N`. -/
  rfft : (N : Nat) → (Fin N → V) → Fin (specLen N) → V × V
  /-- The unnormalised inverse complex-to-real transform of size `N`. -/
  irfft : (N : Nat) → (Fin N → V × V) → Fin N → V
  /-- `y -> trunc(y * 10000 / N)`. -/
  scale : Nat → V → Int

/-- `conj(x, y) = (x, neg y)` (45_arithmetic R238). -/
def NumOps.conj {V : Type} (o : NumOps V) (z : V × V) : V × V := (z.1, o.neg z.2)

/-- `0 + j0` (42_lpf R165). -/
def NumOps.czero {V : Type} (o : NumOps V) : V × V := (o.zero, o.zero)

/-- The phase values of consecutive complex samples, `prev` being the sample before the first (41_demod R140, R142, R143). -/
def phases {V : Type} (o : NumOps V) : Int × Int → List (Int × Int) → List V
  | _, [] => []
  | prev, s :: rest =>
    o.arg2 (productIm s.1 s.2 prev.1 prev.2) (productRe s.1 s.2 prev.1 prev.2) :: phases o s rest

/-- RFFT on a whole buffer: the `NSPEC` bins of the transform of the first `N` values (42_lpf R160). -/
def rfftList {V : Type} (o : NumOps V) (N : Nat) (ph : List V) : List (V × V) :=
  List.ofFn (o.rfft N fun n => ph.getD n.val o.zero)

/-- One bin of the mask, from a spectrum given by index (42_lpf R165). -/
def maskBin {V : Type} (o : NumOps V) (N cutoff : Nat) (spec : Nat → V × V) (k : Nat) : V × V :=
  match binSource N cutoff k with
  | .pass i => spec i
  | .mirror i => o.conj (spec i)
  | .zero => o.czero

/-- MASK on a whole buffer: all `N` bins (42_lpf R165, R166). -/
def maskList {V : Type} (o : NumOps V) (N cutoff : Nat) (spec : List (V × V)) : List (V × V) :=
  (List.range N).map (maskBin o N cutoff fun i => spec.getD i o.czero)

/-- IRFFT on a whole buffer: the `N` samples of the inverse transform of the first `N` bins (42_lpf R172). -/
def irfftList {V : Type} (o : NumOps V) (N : Nat) (fspec : List (V × V)) : List V :=
  List.ofFn (o.irfft N fun k => fspec.getD k.val o.czero)

/-- One output sample: scaled, truncated, wrapped (43_decim R192 to R194). -/
def outSample {V : Type} (o : NumOps V) (N : Nat) (y : V) : Sample := narrow (o.scale N y)

/-- DECIM on a whole buffer: `NOUT` samples, sample `m` from index `5 m` (43_decim R190). -/
def decimList {V : Type} (o : NumOps V) (N nout : Nat) (fsig : List V) : List Sample :=
  (List.range nout).map fun m => outSample o N (fsig.getD (decimIndex m) o.zero)

/-- The real numbers a complex carrier value stands for. -/
def cval {V : Type} (val : V → ℝ) (z : V × V) : ℂ := ⟨val z.1, val z.2⟩

/-- A phase buffer that input bytes can give rise to: every element is an angle of arguments in range (45_arithmetic R239,
N-FINITE). -/
def ArisesPhase {V : Type} (o : NumOps V) (N : Nat) (x : Fin N → V) : Prop :=
  ∀ n, ∃ im re : Int, ArgRange im re ∧ x n = o.arg2 im re

/-- The spectrum of a phase buffer, read by index. -/
def spectrumAt {V : Type} (o : NumOps V) (N : Nat) (x : Fin N → V) (i : Nat) : V × V :=
  if h : i < specLen N then o.rfft N x ⟨i, h⟩ else o.czero

/-- The bins that RFFT and MASK make of a phase buffer. -/
def maskedAt {V : Type} (o : NumOps V) (N : Nat) (x : Fin N → V) (k : Fin N) : V × V :=
  maskBin o N (cutoffOf N) (spectrumAt o N x) k.val

/-- The Filtered Signal that RFFT, MASK and IRFFT make of a phase buffer. -/
def filteredAt {V : Type} (o : NumOps V) (N : Nat) (x : Fin N → V) (n : Fin N) : V :=
  o.irfft N (maskedAt o N x) n

/-- An implementation's numerics: its primitives with the real number each carrier value stands for, its accuracy bounds and the laws
of 45_arithmetic R239. Log entries 1, 2, 3, 18, 21 and 23 say how each law is read. N-FINITE is the type of `val`: every carrier value
stands for a real number. -/
structure Numerics (V : Type) extends NumOps V where
  /-- The real number a carrier value stands for; in statements, not in the machine. -/
  val : V → ℝ
  /-- The representable value nearest to `pi`. -/
  piNear : V
  /-- EPS_ARG (93 U2). -/
  epsArg : ℝ
  /-- EPS_FFT(N) (93 U2). -/
  epsFft : Nat → ℝ
  /-- EPS_IFFT(N) (93 U2). -/
  epsIfft : Nat → ℝ
  /-- EPS_SCALE(N): how far `v = FSIG[5m] * 10000 / N` may be off before it is truncated (45_arithmetic R239; log entry 21). -/
  epsScale : Nat → ℝ
  /-- N-ZERO. -/
  val_zero : val zero = 0
  /-- N-ARG0. -/
  arg2_zero : arg2 0 0 = zero
  /-- `piNear` is nearest to `pi`. -/
  piNear_nearest : ∀ v, |val piNear - Real.pi| ≤ |val v - Real.pi|
  /-- N-ARGRANGE. -/
  arg2_range : ∀ im re, ArgRange im re →
    (-Real.pi < val (arg2 im re) ∧ val (arg2 im re) ≤ Real.pi) ∨
      val (arg2 im re) = val piNear ∨ val (arg2 im re) = -val piNear
  /-- N-FZERO. -/
  rfft_zero : ∀ N, 0 < N → ∀ k, rfft N (fun _ => zero) k = (zero, zero)
  /-- N-IZERO. -/
  irfft_zero : ∀ N, 0 < N → ∀ n, irfft N (fun _ => (zero, zero)) n = zero
  /-- N-IZERO where the format has a negative zero: a conjugated zero bin is still a zero bin (45_arithmetic R240 (c)). -/
  irfft_conjZero : ∀ N, 0 < N → ∀ F : Fin N → V × V,
    (∀ k, F k = (zero, zero) ∨ F k = (zero, neg zero)) → ∀ n, val (irfft N F n) = 0
  /-- N-SZERO, for a negative zero too. -/
  scale_zero : ∀ N, 0 < N → ∀ v, val v = 0 → scale N v = 0
  /-- N-CONJ: `conj(conj(z)) = z`. -/
  neg_neg : ∀ v, neg (neg v) = v
  /-- N-CONJ: `conj((zero, zero))` stands for `0 + j0`. -/
  val_neg_zero : val (neg zero) = 0
  /-- EPS_ARG bounds the angle. -/
  arg2_accuracy : ∀ im re, ArgRange im re → |val (arg2 im re) - arg2Exact im re| ≤ epsArg
  /-- EPS_FFT(N) bounds the forward transform of what input bytes can give rise to. -/
  rfft_accuracy : ∀ N, 0 < N → ∀ x : Fin N → V, ArisesPhase toNumOps N x →
    ∀ k, ‖cval val (rfft N x k) - dftExact N (fun n => val (x n)) k.val‖ ≤ epsFft N
  /-- EPS_IFFT(N) bounds the inverse transform of what MASK makes of those spectra. -/
  irfft_accuracy : ∀ N, 0 < N → ∀ x : Fin N → V, ArisesPhase toNumOps N x →
    ∀ n, |val (filteredAt toNumOps N x n) - idftExact N (fun k => cval val (maskedAt toNumOps N x k)) n.val| ≤ epsIfft N
  /-- `conj` negates the imaginary part exactly, on the spectra that input bytes can give rise to (42_lpf R169; log entry 23). -/
  neg_exact : ∀ N, 0 < N → ∀ x : Fin N → V, ArisesPhase toNumOps N x →
    ∀ k, val (neg (rfft N x k).2) = -val (rfft N x k).2
  /-- EPS_SCALE(N) bounds the scaling: `scale` truncates a real number that is at most that far from `y * 10000 / N`, for what IRFFT
  makes of those bins (43_decim R192, R193; log entry 21). -/
  scale_accuracy : ∀ N, 0 < N → ∀ x : Fin N → V, ArisesPhase toNumOps N x →
    ∀ n, ∃ w : ℝ, |w - val (filteredAt toNumOps N x n) * (ampScale : ℝ) / (N : ℝ)| ≤ epsScale N ∧
      scale N (filteredAt toNumOps N x n) = truncReal w

end Sys2Proof.Machine
end

