-- ==== Sys2Proof/Config.lean ====
section
/-! DEFINITION. What an implementation fixes and the spec leaves open (00_scope R8): the buffer capacity N_MAX, the predicate
PLAN_OK and the numerics NUM; and the free values (93 U4). Each is a constant without a body: nothing evaluates it. -/

namespace Sys2Proof.Config

open Sys2Proof.Machine

/-- A value of the NUM carrier as the machine stores it: the bit pattern of a real value in the implementation's format, read as a
number. The format and its width are open (D2), so the pattern is any natural number (log entry 1). -/
structure Code where
  bits : Nat
deriving DecidableEq, Repr, Inhabited

/-- The capacity of an implementation: the largest `N` its buffers hold, a positive integer, and the sizes its transform engine can be
planned for (00_scope R8, D19). -/
structure Capacity where
  /-- N_MAX. -/
  nMax : ℕ+
  /-- PLAN_OK. -/
  planOk : Nat → Bool

/-- N_MAX and PLAN_OK accept the size `N` (40_init R122). -/
def Capacity.admits (cap : Capacity) (n : Nat) : Bool :=
  decide (n ≤ cap.nMax.val) && cap.planOk n

/-- N_MAX: open, log entry 4. -/
opaque nMax : ℕ+

/-- PLAN_OK: open, log entry 4. -/
opaque planOk : Nat → Bool

/-- This implementation's capacity. -/
def capacity : Capacity := { nMax := nMax, planOk := planOk }

/-- NUM, given that some numerics exists at all (next definition). Open: log entry 1. -/
opaque numericsOf [Inhabited (Numerics Code)] : Numerics Code

/-- A numerics that meets the laws, so that NUM can be declared; nothing else uses it and nothing of it can be proved of NUM. -/
def someNumerics : Numerics Code where
  zero := ⟨0⟩
  neg := id
  arg2 _ _ := ⟨0⟩
  rfft _ _ _ := (⟨0⟩, ⟨0⟩)
  irfft _ _ _ := ⟨0⟩
  scale _ _ := 0
  val _ := 0
  piNear := ⟨0⟩
  epsArg := 4
  epsFft _ := 0
  epsIfft _ := 0
  epsScale _ := 0
  val_zero := rfl
  arg2_zero := rfl
  piNear_nearest _ := le_refl _
  arg2_range _ _ _ := Or.inl ⟨by simp [Real.pi_pos], Real.pi_pos.le⟩
  rfft_zero _ _ _ := rfl
  irfft_zero _ _ _ := rfl
  irfft_conjZero _ _ _ _ _ := rfl
  scale_zero _ _ _ _ := rfl
  neg_neg _ := rfl
  val_neg_zero := rfl
  arg2_accuracy im re _ := by
    have h := arg2Exact_range im re
    have := Real.pi_le_four
    rw [abs_le]
    constructor <;> linarith
  rfft_accuracy _ _ _ _ _ := by simp [cval, dftExact, Complex.ext_iff]
  irfft_accuracy _ _ _ _ _ := by simp [cval, idftExact]
  neg_exact _ _ _ _ _ := by simp
  scale_accuracy _ _ _ _ _ := ⟨0, by simp [truncReal]⟩

/-- NUM: this implementation's numerics (45_arithmetic R238), any that meets the laws of R239. -/
def numerics : Numerics Code := @numericsOf ⟨someNumerics⟩

/-- The primitives of NUM. -/
def numOps : NumOps Code := numerics.toNumOps

/-- The byte that element `index` of IQBUF holds after the failed fill number `draw`: a free value (93 U4, log entry 8). -/
opaque staleByte : Nat → Nat → Byte

end Sys2Proof.Config
end

