-- ==== Sys2Proof/Machine/State.lean ====
section
/-! DEFINITION. The state of the Engine (10_state R20) and of the environment its ports reach (R42), as plain data, the reasons a
step can stop, and the state after reset (R43). -/

namespace Sys2Proof.Machine

open Sys2Proof.Config

/-- ST (10_state R23). -/
inductive DriverState where
  | idle
  | ready
  | running
  | done
  | fault
deriving DecidableEq, Repr

/-- ERR (30_encoding R100). -/
inductive ErrCode where
  | noError
  | cfg
  | res
deriving DecidableEq, Repr

/-- The six working buffers (10_state R31). -/
inductive BufferName where
  | iqbuf
  | ph
  | spec
  | fspec
  | fsig
  | obuf
deriving DecidableEq, Repr

/-- The working buffers while they exist; they are created together by INIT and destroyed together (40_init R120, 44_driver R214). An
element is `none` while it holds no value (10_state R38). -/
structure Buffers where
  /-- IQBUF (10_state R32). -/
  iq : List (Option Byte)
  /-- PH (10_state R33). -/
  ph : List (Option Code)
  /-- SPEC (10_state R34). -/
  spec : List (Option (Code × Code))
  /-- FSPEC (10_state R35). -/
  fspec : List (Option (Code × Code))
  /-- FSIG (10_state R36). -/
  fsig : List (Option Code)
  /-- OBUF (10_state R37). -/
  obuf : List (Option Sample)
deriving DecidableEq, Repr

/-- What the Sample Source answers to one `fill` (20_memory R66): the bytes it obtained, or a device failure. -/
inductive FillAnswer where
  | obtained (bytes : List Byte)
  | deviceError
deriving DecidableEq, Repr

/-- What the outside does next (log entries 5 and 11): a host access at the CTL port (10_state R26), a turn of the sequencer, an answer
of the Sample Source, a change of the Output Sink's readiness, or reset (70_reset R300). -/
inductive Input where
  /-- The host writes `value` to control register `reg`. -/
  | ctlWrite (reg : Nat) (value : Word)
  /-- The host reads control register `reg`. -/
  | ctlRead (reg : Nat)
  /-- The sequencer has the next step. -/
  | engine
  /-- The Sample Source answers one more `fill`. -/
  | answer (a : FillAnswer)
  /-- The Output Sink begins or ceases to accept `write`. -/
  | sink (accepts : Bool)
  /-- Reset. `sent` is how many bytes of an interrupted EMIT the sink has taken, `resumed` what the source goes on with after an
  interrupted FETCH (93 U7). -/
  | reset (sent : Nat) (resumed : List FillAnswer)
deriving DecidableEq, Repr

/-- The complete state. -/
structure State where
  /-- ST (10_state R23). -/
  st : DriverState
  /-- STAGE, the program counter (10_state R24). -/
  stage : BitVec 4
  /-- ERR (10_state R25). -/
  err : ErrCode
  /-- EOS (10_state R25). -/
  eos : Bool
  /-- CMD_ERR (10_state R25). -/
  cmdErr : Bool
  /-- PLAN_VALID: the two transform plans exist (10_state R25, R40). -/
  planValid : Bool
  /-- CHUNK_LEN[27:0] (10_state R29). -/
  chunkLen : BitVec 28
  /-- N_REG (10_state R30). -/
  nReg : Word
  /-- CUTOFF_REG (10_state R30). -/
  cutoffReg : Word
  /-- NOUT_REG (10_state R30). -/
  noutReg : Word
  /-- PREV_RE (10_state R21). -/
  prevRe : BitVec 9
  /-- PREV_IM (10_state R21). -/
  prevIm : BitVec 9
  /-- IQBUF, PH, SPEC, FSPEC, FSIG, OBUF (10_state R31); `none` while they do not exist (R38). -/
  bufs : Option Buffers
  /-- Environment: the answers the Sample Source has given to the next fills (10_state R42). -/
  source : List FillAnswer
  /-- Environment: the bytes the Output Sink holds (10_state R42). -/
  sink : List Byte
  /-- Environment: the Output Sink accepts a `write` now (43_decim R199). -/
  sinkReady : Bool
  /-- Environment: what happens next, in order (log entry 5). -/
  inputs : List Input
  /-- Environment: the value the last register read returned to the host (log entry 5). -/
  hostData : Word
  /-- The model's own: how many free values have been drawn (log entry 8). -/
  freeCount : Nat
deriving DecidableEq, Repr

/-- The model's stops by fault. Each is the treatment `fault` of 93 part 1: the model stops with an error of its own, on a state that
no run from reset reaches; all are safe. An Engine FAULT (60_exceptions R272) is none of these: it is a next state. -/
inductive Fault where
  /-- A stage operation reads a buffer element that holds no value (10_state R38, 93 U5). Safe. -/
  | unwritten (buffer : BufferName) (index : Nat)
  /-- A stage operation runs while the buffers do not exist (93 U8). Safe. -/
  | buffersAbsent
  /-- RFFT or IRFFT runs while the plans do not exist (93 U8). Safe. -/
  | plansAbsent
  /-- The sequencer's turn comes with ST = RUNNING and a STAGE code that is no stage operation (93 U12). Safe. -/
  | reservedStage (code : BitVec 4)
deriving DecidableEq, Repr

/-- The model's stops by refusal. Safe. A command the Engine refuses (60_exceptions R265) is none of these: it is a next state with
CMD_ERR set. -/
inductive Refusal where
  /-- The instruction has no meaning yet; raised by exec's arms only. -/
  | notModelled (mnemonic : String)
  /-- A stage operation reaches an index outside a buffer, which "a model must refuse" (00_scope R11). Safe: no run reaches it. -/
  | indexOutside (buffer : BufferName) (index : Nat)
deriving DecidableEq, Repr

/-- The machine right after reset (10_state R43). The environment's fields are the model's choice (log entry 10). -/
def State.reset : State where
  st := .idle
  stage := 0
  err := .noError
  eos := false
  cmdErr := false
  planValid := false
  chunkLen := 0
  nReg := 0
  cutoffReg := 0
  noutReg := 0
  prevRe := 0
  prevIm := 0
  bufs := none
  source := []
  sink := []
  sinkReady := true
  inputs := []
  hostData := 0
  freeCount := 0

end Sys2Proof.Machine
end

