-- ==== Sys2Proof/Machine/Flags.lean ====
section
/-! DEFINITION. The status fields, the STATUS word and the control registers as the host reads them (10_state R25 to R30). No flag is
a side effect of arithmetic (10_state R25): EOS, ERR, CMD_ERR and PLAN_VALID are written by the operations that Ops and the
families define. -/

namespace Sys2Proof.Machine

/-- The code of ST (30_encoding R99). -/
def stCode : DriverState → BitVec 3
  | .idle => 0
  | .ready => 1
  | .running => 2
  | .done => 3
  | .fault => 4

/-- The code of ERR (30_encoding R100). -/
def errCode : ErrCode → BitVec 4
  | .noError => 0
  | .cfg => 1
  | .res => 2

/-- STATUS: bits [31:14] 0, [13] CMD_ERR, [12] EOS, [11:8] ERR, [7] PLAN_VALID, [6:3] STAGE, [2:0] ST (10_state R28). -/
def statusWord (s : State) : Word :=
  BitVec.cast rfl
    (0#18 ++ BitVec.ofBool s.cmdErr ++ BitVec.ofBool s.eos ++ errCode s.err ++ BitVec.ofBool s.planValid ++ s.stage ++ stCode s.st)

/-- The value a host read of register `reg` returns: CMD reads 0, CHUNK_LEN is zero-extended, a refused read returns 0 (10_state R26
to R30, 60_exceptions R265). -/
def readReg (s : State) (reg : Nat) : Word :=
  match reg with
  | 0 => 0
  | 1 => statusWord s
  | 2 => s.chunkLen.setWidth 32
  | 3 => s.nReg
  | 4 => s.cutoffReg
  | 5 => s.noutReg
  | _ => 0

/-- A read is refused above register 5 and nowhere else (60_exceptions R265). -/
def readRefused (reg : Nat) : Bool := decide (5 < reg)

end Sys2Proof.Machine
end

