-- ==== Sys2Proof/Machine/Ops.lean ====
section
/-! DEFINITION. The operations the meanings share: element reads and whole-buffer writes of the working buffers, taking a fatal error
(60_exceptions R272), refusing a host access (R265), the two port transactions (20_memory R66, R68) and reset (70_reset R300). -/

namespace Sys2Proof.Machine

open Sys2Proof.Config

/-- Why an access stops the model. -/
inductive Stop where
  | fault (f : Fault)
  | refused (r : Refusal)
deriving DecidableEq, Repr

/-- The result of an access: a value, or a stop. -/
abbrev Access (α : Type) := Except Stop α

/-- An access that gives the next state, as the outcome of a step. -/
def outcome : Access State → Host.Outcome State Fault Refusal
  | .ok s => .next s
  | .error (.fault f) => .fault f
  | .error (.refused r) => .refused r

/-- `B[i]`: the element, if the index lies in the buffer and the element holds a value (00_scope R11, 10_state R38). -/
def loadElem {α : Type} (name : BufferName) (buf : List (Option α)) (i : Nat) : Access α :=
  match buf[i]? with
  | some (some v) => .ok v
  | some none => .error (.fault (.unwritten name i))
  | none => .error (.refused (.indexOutside name i))

/-- `for i in …`: one value for each index in order, stopping at the first stop (00_scope R11). -/
def collect {α : Type} (f : Nat → Access α) : List Nat → Access (List α)
  | [] => .ok []
  | i :: rest =>
    match f i with
    | .error e => .error e
    | .ok v =>
      match collect f rest with
      | .error e => .error e
      | .ok vs => .ok (v :: vs)

/-- `B[i] <- v` for `i = 0, 1, …`: the values into the first elements of a buffer, the others unchanged; an index outside the buffer is
refused (00_scope R11). The index named, the buffer's length, is the first one outside; that this stop comes after every read's is log
entry 19. -/
def storeAll {α : Type} (name : BufferName) (buf : List (Option α)) (vals : List α) : Access (List (Option α)) :=
  if vals.length ≤ buf.length then .ok (vals.map some ++ buf.drop vals.length)
  else .error (.refused (.indexOutside name buf.length))

/-- The buffers, or a fault while they do not exist (93 U8). -/
def withBuffers {α : Type} (s : State) (k : Buffers → Access α) : Access α :=
  match s.bufs with
  | some b => k b
  | none => .error (.fault .buffersAbsent)

/-- The transform plans are there, or a fault (93 U8). -/
def withPlans {α : Type} (s : State) (k : Access α) : Access α :=
  if s.planValid then k else .error (.fault .plansAbsent)

/-- A stage operation's end: the buffers it wrote and the code of the next stage operation (44_driver R211). -/
def State.advance (s : State) (b : Buffers) (next : Instr) : State :=
  { s with bufs := some b, stage := opcode next }

/-- A refused host access: CMD_ERR and nothing else (60_exceptions R265). -/
def State.refuseAccess (s : State) : State :=
  { s with cmdErr := true }

/-- `raise E(L)` (60_exceptions R272): ERR, ST = FAULT, STAGE 0, no plan, no buffer, the derived sizes 0; CHUNK_LEN, PREV, EOS and
CMD_ERR keep their values. Nothing is saved, control goes to no handler, and there is no return but reset (R273). -/
def State.raiseError (s : State) (e : ErrCode) : State :=
  { s with
    err := e
    st := .fault
    stage := 0
    planValid := false
    bufs := none
    nReg := 0
    cutoffReg := 0
    noutReg := 0 }

/-- Buffers just created, no element holding a value (40_init R125, 10_state R38). -/
def freshBuffers (len n nout : Nat) : Buffers where
  iq := List.replicate len none
  ph := List.replicate n none
  spec := List.replicate (specLen n) none
  fspec := List.replicate n none
  fsig := List.replicate n none
  obuf := List.replicate nout none

/-- The engine's view of one answer to a `fill` of `len` bytes: `Ok` with exactly `len` bytes, and `Fail` otherwise, whatever the
reason (20_memory R66). -/
def fillResult (len : Nat) : FillAnswer → Option (List Byte)
  | .obtained bytes => if bytes.length = len then some bytes else none
  | .deviceError => none

/-- IQBUF after a failed fill: every element any value (44_driver R213, 93 U4, log entry 8). -/
def staleBuffer (draw : Nat) (buf : List (Option Byte)) : List (Option Byte) :=
  (List.range buf.length).map fun i => some (staleByte draw i)

/-- `MemWrite(OUT, …)`: the sink appends the bytes after everything it holds (20_memory R68). -/
def State.sinkAppend (s : State) (bytes : List Byte) : State :=
  { s with sink := s.sink ++ bytes }

/-- The bytes of an EMIT that reset interrupts which the sink has taken: the first `sent` bytes of the chunk when ST = RUNNING and
STAGE = EMIT, none elsewhere (70_reset R300, 93 U7). -/
def interruptedBytes (s : State) (sent : Nat) : List Byte :=
  if s.st = .running ∧ s.stage = opcode .emit then
    match s.bufs with
    | some b => (serialise ((b.obuf.take s.noutReg.toNat).filterMap id)).take sent
    | none => []
  else []

/-- What the Sample Source goes on with after reset: `resumed` when reset interrupts a FETCH, its own answers elsewhere (70_reset R300,
93 U7). -/
def resumedSource (s : State) (resumed : List FillAnswer) : List FillAnswer :=
  if s.st = .running ∧ s.stage = opcode .fetch then resumed else s.source

/-- Reset: every piece of Engine state at its reset value (10_state R43, 70_reset R300); the environment keeps what it has. -/
def State.takeReset (s : State) (sent : Nat) (resumed : List FillAnswer) : State :=
  { State.reset with
    source := resumedSource s resumed
    sink := s.sink ++ interruptedBytes s sent
    sinkReady := s.sinkReady
    inputs := s.inputs
    hostData := s.hostData
    freeCount := s.freeCount }

end Sys2Proof.Machine
end

