-- ==== Sys2Proof/Machine/Decim.lean ====
section
/-! DEFINITION. DECIM and EMIT (43_decim). -/

namespace Sys2Proof.Machine

open Sys2Proof.Config

/-- Output sample `m`, from `FSIG[5m]` (43_decim R190 to R195). -/
def loadOut (o : NumOps Code) (fsig : List (Option Code)) (n m : Nat) : Access Sample :=
  match loadElem .fsig fsig (decimIndex m) with
  | .error e => .error e
  | .ok y => .ok (outSample o n y)

/-- DECIM over any numerics (43_decim R190). Every read of the loop is tried before OBUF is written, so a read's stop is named where
OBUF is too short as well: the model's choice, log entry 19. -/
def decimWith (o : NumOps Code) (s : State) : Access State :=
  withBuffers s fun b =>
    match collect (loadOut o b.fsig s.nReg.toNat) (List.range s.noutReg.toNat) with
    | .error e => .error e
    | .ok out =>
      match storeAll .obuf b.obuf out with
      | .error e => .error e
      | .ok obuf => .ok (s.advance { b with obuf := obuf } .emit)

/-- DECIM. -/
def execDecim (s : State) : Host.Outcome State Fault Refusal :=
  outcome (decimWith numOps s)

/-- EMIT (43_decim R197): one write of the whole Output Chunk. While the sink does not accept, nothing happens (R199, log entry 6).
OBUF keeps its bits (R200, log entry 9). -/
def emitChunk (s : State) : Access State :=
  if s.sinkReady then
    withBuffers s fun b =>
      match collect (loadElem .obuf b.obuf) (List.range s.noutReg.toNat) with
      | .error e => .error e
      | .ok out => .ok ((s.sinkAppend (serialise out)).advance b .fetch)
  else .ok s

/-- EMIT. -/
def execEmit (s : State) : Host.Outcome State Fault Refusal :=
  outcome (emitChunk s)

end Sys2Proof.Machine
end

