-- ==== Sys2Proof/Machine/Demod.lean ====
section
/-! DEFINITION. DEMOD (41_demod). -/

namespace Sys2Proof.Machine

open Sys2Proof.Config

/-- Complex sample `n` of the chunk, from `IQBUF[2n]` and `IQBUF[2n+1]` (41_demod R141). -/
def loadSample (iq : List (Option Byte)) (n : Nat) : Access (Int × Int) :=
  match loadElem .iqbuf iq (2 * n) with
  | .error e => .error e
  | .ok i =>
    match loadElem .iqbuf iq (2 * n + 1) with
    | .error e => .error e
    | .ok q => .ok (component i, component q)

/-- PREV as a complex sample (10_state R21). -/
def State.prev (s : State) : Int × Int := (s.prevRe.toInt, s.prevIm.toInt)

/-- PREV written with a complex sample (41_demod R145). -/
def State.setPrev (s : State) (p : Int × Int) : State :=
  { s with prevRe := BitVec.ofInt 9 p.1, prevIm := BitVec.ofInt 9 p.2 }

/-- DEMOD over any numerics (41_demod R140). Every read of the loop is tried before PH is written, so where an element of IQBUF cannot
be read and PH is too short as well, the stop named is the read's: the model's choice, log entry 19. -/
def demodWith (o : NumOps Code) (s : State) : Access State :=
  withBuffers s fun b =>
    match collect (loadSample b.iq) (List.range s.nReg.toNat) with
    | .error e => .error e
    | .ok samples =>
      match storeAll .ph b.ph (phases o s.prev samples) with
      | .error e => .error e
      | .ok ph => .ok ((s.setPrev (lastSample s.prev samples)).advance { b with ph := ph } .rfft)

/-- DEMOD. -/
def execDemod (s : State) : Host.Outcome State Fault Refusal :=
  outcome (demodWith numOps s)

end Sys2Proof.Machine
end

