-- ==== Sys2Proof/Machine/Driver.lean ====
section
/-! DEFINITION. RUN, FETCH and RELEASE (44_driver). -/

namespace Sys2Proof.Machine

open Sys2Proof.Config

/-- RUN as a function of the state (44_driver R210, R218). -/
def startRun (s : State) : State :=
  if s.st = .ready then { s with st := .running, stage := opcode .fetch }
  else s.refuseAccess

/-- RUN. -/
def execRun (s : State) : Host.Outcome State Fault Refusal :=
  .next (startRun s)

/-- FETCH (44_driver R212, R213): one fill transaction. While the source has not answered, nothing happens (20_memory R67, log
entry 6). -/
def fetchChunk (s : State) : Access State :=
  match s.source with
  | [] => .ok s
  | a :: rest =>
    withBuffers s fun b =>
      match fillResult s.chunkLen.toNat a with
      | some bytes =>
        match storeAll .iqbuf b.iq bytes with
        | .error e => .error e
        | .ok iq => .ok ({ s with source := rest }.advance { b with iq := iq } .demod)
      | none =>
        .ok ({ s with source := rest, eos := true, freeCount := s.freeCount + 1 }.advance
          { b with iq := staleBuffer s.freeCount b.iq } .release)

/-- FETCH. -/
def execFetch (s : State) : Host.Outcome State Fault Refusal :=
  outcome (fetchChunk s)

/-- RELEASE as a function of the state (44_driver R214). -/
def releaseAll (s : State) : State :=
  { s with planValid := false, bufs := none, st := .done, stage := 0 }

/-- RELEASE. -/
def execRelease (s : State) : Host.Outcome State Fault Refusal :=
  .next (releaseAll s)

end Sys2Proof.Machine
end

