-- ==== Sys2Proof/Machine/Init.lean ====
section
/-! DEFINITION. INIT (40_init). -/

namespace Sys2Proof.Machine

open Sys2Proof.Config

/-- A successful INIT: sizes, buffers, plans, READY (40_init R123 to R125). PREV, EOS and STAGE are not touched (R120). -/
def State.configure (s : State) (n : Nat) : State :=
  { s with
    nReg := BitVec.ofNat 32 n
    cutoffReg := BitVec.ofNat 32 (cutoffOf n)
    noutReg := BitVec.ofNat 32 (noutOf n)
    bufs := some (freshBuffers s.chunkLen.toNat n (noutOf n))
    planValid := true
    st := .ready }

/-- INIT for a capacity: the checks in the order of 60_exceptions R269 (40_init R120). -/
def initWith (cap : Capacity) (len : BitVec 28) (s : State) : State :=
  if s.st = .idle then
    let s' := { s with chunkLen := len }
    if len.toNat = 0 ∨ len.toNat % 2 = 1 then s'.raiseError .cfg
    else if cap.admits (sizeN len.toNat) then s'.configure (sizeN len.toNat)
    else s'.raiseError .res
  else s.refuseAccess

/-- INIT. -/
def execInit (len : BitVec 28) (s : State) : Host.Outcome State Fault Refusal :=
  .next (initWith capacity len s)

end Sys2Proof.Machine
end

