-- ==== Sys2Proof/Machine/Lpf.lean ====
section
/-! DEFINITION. RFFT, MASK and IRFFT (42_lpf). -/

namespace Sys2Proof.Machine

open Sys2Proof.Config

/-- RFFT over any numerics (42_lpf R160, R162). The whole of PH is read before SPEC is written (log entry 19). -/
def rfftWith (o : NumOps Code) (s : State) : Access State :=
  withPlans s <| withBuffers s fun b =>
    match collect (loadElem .ph b.ph) (List.range s.nReg.toNat) with
    | .error e => .error e
    | .ok ph =>
      match storeAll .spec b.spec (rfftList o s.nReg.toNat ph) with
      | .error e => .error e
      | .ok spec => .ok (s.advance { b with spec := spec } .mask)

/-- RFFT. -/
def execRfft (s : State) : Host.Outcome State Fault Refusal :=
  outcome (rfftWith numOps s)

/-- Bin `k` of the Filtered Spectrum, from the one element of SPEC it needs, if any (42_lpf R165, 45_arithmetic R242). -/
def loadBin (o : NumOps Code) (spec : List (Option (Code × Code))) (n cutoff k : Nat) : Access (Code × Code) :=
  match binSource n cutoff k with
  | .pass i => loadElem .spec spec i
  | .mirror i =>
    match loadElem .spec spec i with
    | .error e => .error e
    | .ok z => .ok (o.conj z)
  | .zero => .ok o.czero

/-- MASK over any numerics (42_lpf R165). Every read of the loop is tried before FSPEC is written, so a read's stop is named where
FSPEC is too short as well: the model's choice, log entry 19. -/
def maskWith (o : NumOps Code) (s : State) : Access State :=
  withBuffers s fun b =>
    match collect (loadBin o b.spec s.nReg.toNat s.cutoffReg.toNat) (List.range s.nReg.toNat) with
    | .error e => .error e
    | .ok bins =>
      match storeAll .fspec b.fspec bins with
      | .error e => .error e
      | .ok fspec => .ok (s.advance { b with fspec := fspec } .irfft)

/-- MASK. -/
def execMask (s : State) : Host.Outcome State Fault Refusal :=
  outcome (maskWith numOps s)

/-- IRFFT over any numerics, reading every element of FSPEC (42_lpf R172, R176), the whole of it before FSIG is written (log entry
19). -/
def irfftWith (o : NumOps Code) (s : State) : Access State :=
  withPlans s <| withBuffers s fun b =>
    match collect (loadElem .fspec b.fspec) (List.range s.nReg.toNat) with
    | .error e => .error e
    | .ok fspec =>
      match storeAll .fsig b.fsig (irfftList o s.nReg.toNat fspec) with
      | .error e => .error e
      | .ok fsig => .ok (s.advance { b with fsig := fsig } .decim)

/-- IRFFT. -/
def execIrfft (s : State) : Host.Outcome State Fault Refusal :=
  outcome (irfftWith numOps s)

end Sys2Proof.Machine
end

