-- ==== Sys2Proof/Machine/Dispatch.lean ====
section
/-! DEFINITION. The meaning of each operation, one arm per constructor. -/

namespace Sys2Proof.Machine

/-- What an operation does once its issuer has issued it: the host by a command word, the sequencer by STAGE (log entry 15). -/
def exec (i : Instr) (s : State) : Host.Outcome State Fault Refusal :=
  match i with
  | .init len => Sys2Proof.Machine.execInit len s
  | .run => Sys2Proof.Machine.execRun s
  | .fetch => Sys2Proof.Machine.execFetch s
  | .demod => Sys2Proof.Machine.execDemod s
  | .rfft => Sys2Proof.Machine.execRfft s
  | .mask => Sys2Proof.Machine.execMask s
  | .irfft => Sys2Proof.Machine.execIrfft s
  | .decim => Sys2Proof.Machine.execDecim s
  | .emit => Sys2Proof.Machine.execEmit s
  | .release => Sys2Proof.Machine.execRelease s

end Sys2Proof.Machine
end

