-- ==== Sys2Proof/Machine/Ports.lean ====
section
/-! DEFINITION. What the next step is about: the input at the head of the script, the operation it or STAGE stands for, and the
effect of the inputs that are no operation (10_state R26, R27; 44_driver R211; 60_exceptions R265, R270). -/

namespace Sys2Proof.Machine

/-- What one step does. -/
inductive Turn where
  /-- Run an operation on this state. -/
  | run (i : Instr) (s : State)
  /-- The step ends in this state. -/
  | moved (s : State)
  /-- The model stops (93 U12). -/
  | stopped (f : Fault)
deriving DecidableEq, Repr

/-- The sequencer's turn: the stage operation whose code is in STAGE while ST = RUNNING; no step in any other ST (44_driver R211). -/
def sequencerTurn (s : State) : Turn :=
  if s.st = .running then
    match decodeStage s.stage with
    | .ok i => .run i s
    | .error _ => .stopped (.reservedStage s.stage)
  else .moved s

/-- A host write: CMD takes a command word, and an illegal word or a write to any other register is refused (10_state R26, R27;
30_encoding R102). -/
def writeTurn (s : State) (reg : Nat) (value : Word) : Turn :=
  if reg = 0 then
    match decodeCommand value with
    | .ok i => .run i s
    | .error _ => .moved s.refuseAccess
  else .moved s.refuseAccess

/-- A host read: the value goes to the host; above register 5 the access is refused (10_state R26, 60_exceptions R265). -/
def readTurn (s : State) (reg : Nat) : State :=
  { s with hostData := readReg s reg, cmdErr := s.cmdErr || readRefused reg }

/-- The effect of one input, on the state from which it has been taken. -/
def inputTurn (s : State) : Input → Turn
  | .ctlWrite reg value => writeTurn s reg value
  | .ctlRead reg => .moved (readTurn s reg)
  | .engine => sequencerTurn s
  | .answer a => .moved { s with source := s.source ++ [a] }
  | .sink accepts => .moved { s with sinkReady := accepts }
  | .reset sent resumed => .moved (s.takeReset sent resumed)

/-- The next turn: the input at the head of the script, taken off it, or the sequencer's turn when the script is empty (log entry
5). -/
def nextTurn (s : State) : Turn :=
  match s.inputs with
  | [] => sequencerTurn s
  | i :: rest => inputTurn { s with inputs := rest } i

/-- The state whose next turn is the command word `value`: the host's write stands before every other input. -/
def withCommand (s : State) (value : Word) : State :=
  { s with inputs := .ctlWrite 0 value :: s.inputs }

/-- The state whose next turn is the stage operation with code `code`: ST = RUNNING, STAGE holds it and the sequencer has the turn.
RUNNING takes buffers and plans (10_state R38, R40): they are there, buffers that did not exist being fresh ones of the sizes in the
registers (log entry 13). -/
def withStage (s : State) (code : BitVec 4) : State :=
  { s with
    st := .running
    stage := code
    planValid := true
    bufs :=
      match s.bufs with
      | some b => some b
      | none => some (freshBuffers s.chunkLen.toNat s.nReg.toNat s.noutReg.toNat)
    inputs := .engine :: s.inputs }

end Sys2Proof.Machine
end

