-- ==== Sys2Proof/Machine/Step.lean ====
section
/-! DEFINITION. One step of the machine. -/

namespace Sys2Proof.Machine

/-- One step: the next turn, and the operation it runs, if any. -/
def step (s : State) : Host.Outcome State Fault Refusal :=
  match nextTurn s with
  | .run i s' => exec i s'
  | .moved s' => .next s'
  | .stopped f => .fault f

/-- The state with an instruction's bits where the next step takes its instruction from: 32 bits are a command word the host writes,
fewer are a STAGE code (log entry 13). -/
def State.withFetchWord (s : State) (nbits w : Nat) : State :=
  if nbits = 32 then withCommand s (BitVec.ofNat 32 w) else withStage s (BitVec.ofNat 4 w)

end Sys2Proof.Machine
end

