-- ==== Sys2Proof/Machine/Chunk.lean ====
section
/-! DEFINITION. One chunk, and a whole run, as functions (44_driver R220): what the stage operations compute together, without buffers,
registers or stages. The machine does not use this file; statements compare the machine with it. -/

namespace Sys2Proof.Machine

/-- The frequency-domain low-pass filter: IRFFT(MASK(RFFT(PH))) (30_encoding R107, 44_driver R220). -/
def lowPass {V : Type} (o : NumOps V) (N : Nat) (ph : List V) : List V :=
  irfftList o N (maskList o N (cutoffOf N) (rfftList o N ph))

/-- The samples of one chunk's Output Chunk from its phase values. -/
def chunkSamples {V : Type} (o : NumOps V) (N : Nat) (ph : List V) : List Sample :=
  decimList o N (noutOf N) (lowPass o N ph)

/-- `chunk(prev, b) = (out, prev')` (44_driver R220). -/
def chunk {V : Type} (o : NumOps V) (N : Nat) (prev : Int × Int) (bytes : List Byte) : List Byte × (Int × Int) :=
  (serialise (chunkSamples o N (phases o prev (samplesOf bytes))), lastSample prev (samplesOf bytes))

/-- The outputs of successive chunks, joined, and the last PREV (44_driver R220). -/
def chunks {V : Type} (o : NumOps V) (N : Nat) : Int × Int → List (List Byte) → List Byte × (Int × Int)
  | prev, [] => ([], prev)
  | prev, b :: rest =>
    ((chunk o N prev b).1 ++ (chunks o N (chunk o N prev b).2 rest).1, (chunks o N (chunk o N prev b).2 rest).2)

end Sys2Proof.Machine
end

