-- ==== Sys2Proof/Machine/Reference.lean ====
section
/-! DEFINITION. NUM_exact (45_arithmetic R237, R238): the reference instance of the numerics, over the exact reals, every accuracy
bound 0. It shows that the laws of R239 admit exact arithmetic, and statements about exact values are made of it. -/

namespace Sys2Proof.Machine

/-- The primitives of exact arithmetic. -/
noncomputable def exactOps : NumOps ℝ where
  zero := 0
  neg y := -y
  arg2 := arg2Exact
  rfft N x k := ((dftExact N x k.val).re, (dftExact N x k.val).im)
  irfft N F n := idftExact N (fun k => ⟨(F k).1, (F k).2⟩) n.val
  scale := scaleExact

/-- NUM_exact, with its laws. -/
noncomputable def exactNumerics : Numerics ℝ where
  toNumOps := exactOps
  val := id
  piNear := Real.pi
  epsArg := 0
  epsFft _ := 0
  epsIfft _ := 0
  epsScale _ := 0
  val_zero := rfl
  arg2_zero := by simp [exactOps, arg2Exact]
  piNear_nearest v := by simp
  arg2_range im re _ := Or.inl (arg2Exact_range im re)
  rfft_zero N _ k := by simp [exactOps, dftExact]
  irfft_zero N _ n := by simp [exactOps, idftExact, Complex.mul_re]
  irfft_conjZero N _ F h n := by
    have hz : ∀ k, (⟨(F k).1, (F k).2⟩ : ℂ) = 0 := by
      intro k
      rcases h k with h | h <;> simp [h, exactOps, Complex.ext_iff]
    have hF : (fun k => (⟨(F k).1, (F k).2⟩ : ℂ)) = fun _ => 0 := funext hz
    change idftExact N (fun k => ⟨(F k).1, (F k).2⟩) n.val = 0
    rw [hF]
    simp [idftExact]
  scale_zero N _ v h := by
    simp only [id] at h
    simp [exactOps, scaleExact, truncReal, h]
  neg_neg v := by simp [exactOps]
  val_neg_zero := by simp [exactOps]
  arg2_accuracy im re _ := by simp [exactOps]
  rfft_accuracy N _ x _ k := by simp [exactOps, cval]
  irfft_accuracy N _ x _ n := by simp [exactOps, cval, filteredAt]
  neg_exact N _ x _ k := by simp [exactOps]
  scale_accuracy N _ x _ n := ⟨_, by simp, rfl⟩

/-- The real sequence `A cos(2 pi f n / N + p)`, `n = 0 .. N - 1` (42_lpf R175). -/
noncomputable def tone (N : Nat) (A : ℝ) (f : Nat) (p : ℝ) : List ℝ :=
  List.ofFn fun n : Fin N => A * Real.cos (2 * Real.pi * (f : ℝ) * (n.val : ℝ) / (N : ℝ) + p)

/-- The kernel of the filter: `D[r] = 2 * sum over k = 1 .. CUTOFF-1 of cos(2 pi k r / N)` (42_lpf R173). -/
noncomputable def filterKernel (N r : Nat) : ℝ :=
  2 * ∑ k ∈ Finset.Ico 1 (cutoffOf N), Real.cos (2 * Real.pi * (k : ℝ) * (r : ℝ) / (N : ℝ))

/-- Exact arithmetic under the opposite sign convention of the transforms (42_lpf R161 (g), D5). -/
noncomputable def exactOpsOtherSign : NumOps ℝ where
  zero := 0
  neg y := -y
  arg2 := arg2Exact
  rfft N x k := ((dftExact N x k.val).re, -(dftExact N x k.val).im)
  irfft N F n := (∑ k : Fin N, (⟨(F k).1, (F k).2⟩ : ℂ) * unitRoot (-((k.val : ℝ) * (n.val : ℝ) / (N : ℝ)))).re
  scale := scaleExact

end Sys2Proof.Machine
end

