-- ==== Sys2Proof/Machine/Accuracy.lean ====
section
/-! DEFINITION. What a claim about a sample's value may rest on under a numerics other than NUM_exact (45_arithmetic R240): the
exact scaled value, the error that the open bounds add up to, and the margin from the boundaries of truncation. The machine does not
use this file; statements do. -/

namespace Sys2Proof.Machine

/-- The exact scaled value `v = FSIG[5m] * 10000 / N` of a chunk's phase values (43_decim R192, 45_arithmetic R240). -/
noncomputable def exactScaled (N : Nat) (ph : List ℝ) (m : Nat) : ℝ :=
  (lowPass exactOps N ph).getD (decimIndex m) 0 * (ampScale : ℝ) / (N : ℝ)

/-- The scaled and truncated integer that DECIM narrows, under any numerics (43_decim R190). -/
def scaledSample {V : Type} (o : NumOps V) (N : Nat) (ph : List V) (m : Nat) : Int :=
  o.scale N ((lowPass o N ph).getD (decimIndex m) o.zero)

/-- The accumulated error bound on `v` (45_arithmetic R240; log entry 24). Each exact bin is a sum over `N` phase values, each off
by at most EPS_ARG, and is itself off by EPS_FFT(N); `CUTOFF - 1` bins and their mirrors enter the inverse sum, which is off by
EPS_IFFT(N); the scaling adds EPS_SCALE(N). -/
noncomputable def accumulatedError {V : Type} (num : Numerics V) (N : Nat) : ℝ :=
  (2 * ((cutoffOf N - 1 : Nat) : ℝ) * ((N : ℝ) * num.epsArg + num.epsFft N) + num.epsIfft N) * (ampScale : ℝ) / (N : ℝ)
    + num.epsScale N

/-- `v` is farther than `e` from every boundary of `trunc`: from every integer but 0, on both sides of which `trunc` gives 0
(45_arithmetic R240, R234). -/
def ClearOfBoundaries (e v : ℝ) : Prop := ∀ k : Int, k ≠ 0 → e < |v - (k : ℝ)|

end Sys2Proof.Machine
end

