-- ==== Sys2Proof/Safety.lean ====
section
/-! DEFINITION. What holds in every state a run can reach: the invariant that the spec's prose gives the machine, and the
transitions of ST. -/

namespace Sys2Proof.Machine

open Sys2Proof.Config

/-- Every element of a buffer holds a value (10_state R38). -/
def allWritten {α : Type} (buf : List (Option α)) : Bool := buf.all Option.isSome

/-- The configuration registers hold an accepted `L` and the sizes derived from it (10_state R29, R30; 00_scope R7). -/
structure Configured (s : State) : Prop where
  len_pos : s.chunkLen.toNat ≠ 0
  len_even : s.chunkLen.toNat % 2 = 0
  n_eq : s.nReg.toNat = sizeN s.chunkLen.toNat
  cutoff_eq : s.cutoffReg.toNat = cutoffOf (sizeN s.chunkLen.toNat)
  nout_eq : s.noutReg.toNat = noutOf (sizeN s.chunkLen.toNat)

/-- In READY, RUNNING and DONE the chunk length has passed the resource check (10_state R29, 40_init R122). It stands apart from the
invariant, so that no other clause rests on the open N_MAX and PLAN_OK. -/
def Admitted (s : State) : Prop :=
  s.st = .ready ∨ s.st = .running ∨ s.st = .done → capacity.admits (sizeN s.chunkLen.toNat) = true

/-- The buffers have the lengths of 10_state R31. -/
structure Shaped (s : State) (b : Buffers) : Prop where
  iq_len : b.iq.length = s.chunkLen.toNat
  ph_len : b.ph.length = s.nReg.toNat
  spec_len : b.spec.length = specLen s.nReg.toNat
  fspec_len : b.fspec.length = s.nReg.toNat
  fsig_len : b.fsig.length = s.nReg.toNat
  obuf_len : b.obuf.length = s.noutReg.toNat

/-- The buffer that the next stage operation reads was written earlier in the same chunk (10_state R38). -/
structure InputWritten (s : State) (b : Buffers) : Prop where
  demod_in : s.stage = opcode .demod → allWritten b.iq = true
  rfft_in : s.stage = opcode .rfft → allWritten b.ph = true
  mask_in : s.stage = opcode .mask → allWritten b.spec = true
  irfft_in : s.stage = opcode .irfft → allWritten b.fspec = true
  decim_in : s.stage = opcode .decim → allWritten b.fsig = true
  emit_in : s.stage = opcode .emit → allWritten b.obuf = true

/-- The invariant of the machine. -/
structure Inv (s : State) : Prop where
  /-- While ST = RUNNING, STAGE holds one of the eight stage codes (10_state R24). -/
  stage_running : s.st = .running → 3 ≤ s.stage.toNat ∧ s.stage.toNat ≤ 10
  /-- While ST is anything else, STAGE is 0 (10_state R24). -/
  stage_zero : s.st ≠ .running → s.stage = 0
  /-- PREV is a complex sample: each part in -127 .. 128 (10_state R21). -/
  prev_re : -127 ≤ s.prevRe.toInt ∧ s.prevRe.toInt ≤ 128
  prev_im : -127 ≤ s.prevIm.toInt ∧ s.prevIm.toInt ≤ 128
  /-- PREV keeps its reset value until the loop runs (40_init R126). -/
  prev_seed : s.st = .idle ∨ s.st = .ready ∨ s.st = .fault → s.prevRe = 0 ∧ s.prevIm = 0
  /-- ERR names an error exactly in FAULT (60_exceptions R268, R273). -/
  err_fault : s.err ≠ .noError ↔ s.st = .fault
  /-- EOS is set exactly from a failed fill on (44_driver R213). -/
  eos_end : s.eos = true ↔ (s.st = .running ∧ s.stage = opcode .release) ∨ s.st = .done
  /-- The plans exist exactly in READY and RUNNING (10_state R25, R40). -/
  plan : s.planValid = true ↔ s.st = .ready ∨ s.st = .running
  /-- In IDLE nothing is configured (10_state R43). -/
  idle_len : s.st = .idle → s.chunkLen = 0
  /-- In IDLE and FAULT the derived sizes read 0 (10_state R30). -/
  sizes_zero : s.st = .idle ∨ s.st = .fault → s.nReg = 0 ∧ s.cutoffReg = 0 ∧ s.noutReg = 0
  /-- In READY, RUNNING and DONE the configuration is an accepted one (10_state R29). -/
  configured : s.st = .ready ∨ s.st = .running ∨ s.st = .done → Configured s
  /-- In IDLE, DONE and FAULT the buffers do not exist (10_state R38). -/
  no_bufs : s.st = .idle ∨ s.st = .done ∨ s.st = .fault → s.bufs = none
  /-- In READY and RUNNING they exist with the lengths of 10_state R31, and the next operation's input is written (R38). -/
  has_bufs : s.st = .ready ∨ s.st = .running → ∃ b, s.bufs = some b ∧ Shaped s b ∧ InputWritten s b

/-- The transitions of ST but for reset (44_driver R215), those that keep ST included. -/
inductive Transition : DriverState → DriverState → Prop where
  | stay (x : DriverState) : Transition x x
  | initOk : Transition .idle .ready
  | initErr : Transition .idle .fault
  | run : Transition .ready .running
  | release : Transition .running .done

/-- The next step takes reset. -/
def resetNext (s : State) : Bool :=
  match s.inputs with
  | .reset _ _ :: _ => true
  | _ => false

/-- The next step is the sequencer's turn. -/
def engineNext (s : State) : Bool :=
  match s.inputs with
  | [] => true
  | .engine :: _ => true
  | _ => false

/-- The state once the next input is taken off the script. -/
def State.taken (s : State) : State := { s with inputs := s.inputs.tail }

end Sys2Proof.Machine
end

