-- ==== Sys2Proof/Certificates/Slice0/Obligations.lean ====
section
/-! DEFINITION. The statements for the provers. Each docstring names the rule of spec/ it formalises, or says that it is the model's
choice and names the log entry. -/

open Sys2Proof Sys2Proof.Machine Sys2Proof.Config

/-! ## Encoding -/

/-- 30_encoding R94 to R98, R102: a command word or stage code decodes to an operation exactly when it is that operation's encoding. So
decoding an encoding gives the operation back, with every operand value, and no other word is legal. -/
def Obligations.DecodeIffEncode : Prop :=
  ∀ (e : Encoded) (i : Instr), decode e = .ok i ↔ encode i = e

/-- 30_encoding R96 to R98, with the words 40_init R120 and 44_driver R210 print: these words decode to these operations. -/
def Obligations.DecodeListedWords : Prop :=
  decodeCommand 0x10000800#32 = .ok (.init 2048#28) ∧ decodeCommand 0x20000000#32 = .ok .run ∧
    decodeStage 0b0011#4 = .ok .fetch ∧ decodeStage 0b0100#4 = .ok .demod ∧ decodeStage 0b0101#4 = .ok .rfft ∧
    decodeStage 0b0110#4 = .ok .mask ∧ decodeStage 0b0111#4 = .ok .irfft ∧ decodeStage 0b1000#4 = .ok .decim ∧
    decodeStage 0b1001#4 = .ok .emit ∧ decodeStage 0b1010#4 = .ok .release

/-! ## The step and the host port -/

/-- 10_state R27: a write of a legal command word to CMD runs that command, the write taken off the script. -/
def Obligations.StepRunsHostCommand : Prop :=
  ∀ (s : State) (w : Word) (rest : List Input) (i : Instr),
    s.inputs = .ctlWrite 0 w :: rest → decodeCommand w = .ok i → step s = exec i { s with inputs := rest }

/-- 44_driver R211: in the sequencer's turn, while ST = RUNNING, the step runs the stage operation whose code is in STAGE. -/
def Obligations.StepRunsStageOperation : Prop :=
  ∀ (s : State) (i : Instr),
    engineNext s = true → s.st = .running → decodeStage s.stage = .ok i → step s = exec i s.taken

/-- 44_driver R211, 70_reset R302: while ST is not RUNNING the sequencer has no step. That its turn then changes nothing is log
entry 6. -/
def Obligations.SequencerRestsOutsideRunning : Prop :=
  ∀ s : State, engineNext s = true → s.st ≠ .running → step s = .next s.taken

/-- 30_encoding R102, 10_state R26, 60_exceptions R265: a write to CMD of a word with a reserved code, with a stage code, or with
RUN's code and a non-zero ARG, and a write of any word to any other register, changes nothing but CMD_ERR, in every state. -/
def Obligations.RefusedHostWrites : Prop :=
  ∀ (s : State) (reg : Nat) (w : Word) (rest : List Input), s.inputs = .ctlWrite reg w :: rest →
    (reg = 0 ∧ ((opField w).toNat = 0 ∨ 11 ≤ (opField w).toNat)) ∨
      (reg = 0 ∧ 3 ≤ (opField w).toNat ∧ (opField w).toNat ≤ 10) ∨
      (reg = 0 ∧ (opField w).toNat = 2 ∧ argField w ≠ 0) ∨
      reg ≠ 0 →
    step s = .next { s with inputs := rest, cmdErr := true }

/-- 10_state R26 to R30, 60_exceptions R265: what a host read returns, register by register, and that it changes nothing else but
CMD_ERR, and that only above register 5. -/
def Obligations.HostReadReturnsRegister : Prop :=
  ∀ (s : State) (reg : Nat) (rest : List Input), s.inputs = .ctlRead reg :: rest →
    step s = .next { s with
      inputs := rest
      cmdErr := s.cmdErr || decide (5 < reg)
      hostData :=
        if reg = 1 then statusWord s
        else if reg = 2 then s.chunkLen.setWidth 32
        else if reg = 3 then s.nReg
        else if reg = 4 then s.cutoffReg
        else if reg = 5 then s.noutReg
        else 0 }

/-- 10_state R28 with the codes of R23 and 30_encoding R100: every field of STATUS, the reserved bits included. -/
def Obligations.StatusWordFields : Prop :=
  ∀ s : State,
    (statusWord s).extractLsb' 0 3 = stCode s.st ∧ (statusWord s).extractLsb' 3 4 = s.stage ∧
      (statusWord s).getLsbD 7 = s.planValid ∧ (statusWord s).extractLsb' 8 4 = errCode s.err ∧
      (statusWord s).getLsbD 12 = s.eos ∧ (statusWord s).getLsbD 13 = s.cmdErr ∧
      (statusWord s).extractLsb' 14 18 = 0#18 ∧
      (stCode .idle = 0 ∧ stCode .ready = 1 ∧ stCode .running = 2 ∧ stCode .done = 3 ∧ stCode .fault = 4) ∧
      (errCode .noError = 0 ∧ errCode .cfg = 1 ∧ errCode .res = 2)

/-! ## Reset -/

/-- 10_state R43: the Engine's state after reset. -/
def Obligations.ResetValues : Prop :=
  State.reset.st = .idle ∧ State.reset.stage = 0 ∧ State.reset.err = .noError ∧ State.reset.eos = false ∧
    State.reset.cmdErr = false ∧ State.reset.planValid = false ∧ State.reset.chunkLen = 0 ∧ State.reset.nReg = 0 ∧
    State.reset.cutoffReg = 0 ∧ State.reset.noutReg = 0 ∧ State.reset.prevRe = 0 ∧ State.reset.prevIm = 0 ∧
    State.reset.bufs = none

/-- 70_reset R300, 93 U7: reset in any state puts every piece of Engine state at its reset value; the sink keeps its bytes, and
after an interrupted EMIT holds a prefix of that chunk's bytes after them. -/
def Obligations.ResetFromAnyState : Prop :=
  ∀ (s : State) (sent : Nat) (resumed : List FillAnswer) (rest : List Input), s.inputs = .reset sent resumed :: rest →
    ∃ (bytes : List Byte) (src : List FillAnswer),
      step s = .next { State.reset with
        source := src
        sink := s.sink ++ bytes
        sinkReady := s.sinkReady
        inputs := rest
        hostData := s.hostData
        freeCount := s.freeCount } ∧
      (¬(s.st = .running ∧ s.stage = opcode .emit) → bytes = []) ∧
      (¬(s.st = .running ∧ s.stage = opcode .fetch) → src = s.source) ∧
      (∀ (b : Buffers) (out : List Sample), s.st = .running → s.stage = opcode .emit → s.bufs = some b →
        b.obuf = out.map some → out.length = s.noutReg.toNat → bytes = (serialise out).take sent)

/-! ## INIT and RUN -/

/-- 40_init R127, 44_driver R218: INIT in a state other than IDLE and RUN in a state other than READY are refused: no state changes
except CMD_ERR. -/
def Obligations.CommandsRefusedInOtherStates : Prop :=
  (∀ (len : BitVec 28) (s : State), s.st ≠ .idle → exec (.init len) s = .next { s with cmdErr := true }) ∧
    ∀ s : State, s.st ≠ .ready → exec .run s = .next { s with cmdErr := true }

/-- 40_init R121, 60_exceptions R272: INIT in IDLE with `L` zero or odd raises E_CFG, whatever the capacity: what the error entry
writes, and that it changes nothing else. -/
def Obligations.InitRaisesConfigError : Prop :=
  ∀ (len : BitVec 28) (s : State), s.st = .idle → len.toNat = 0 ∨ len.toNat % 2 = 1 →
    exec (.init len) s = .next { s with
      chunkLen := len
      err := .cfg
      st := .fault
      stage := 0
      planValid := false
      bufs := none
      nReg := 0
      cutoffReg := 0
      noutReg := 0 }

/-- 40_init R122 to R125, for every N_MAX and PLAN_OK: INIT in IDLE with `L` even and positive gives READY with sizes, plans and
fresh buffers where the size is within capacity, and raises E_RES where it is not. The machine's INIT is this one for its own
capacity. -/
def Obligations.InitByCapacity : Prop :=
  ∀ (cap : Capacity) (len : BitVec 28) (s : State), s.st = .idle → len.toNat ≠ 0 → len.toNat % 2 = 0 →
    initWith cap len s =
      (if len.toNat / 2 ≤ cap.nMax.val ∧ cap.planOk (len.toNat / 2) = true then
        { s with
          chunkLen := len
          nReg := BitVec.ofNat 32 (len.toNat / 2)
          cutoffReg := BitVec.ofNat 32 (len.toNat / 2 / 14)
          noutReg := BitVec.ofNat 32 ((len.toNat / 2 - 1) / 5 + 1)
          bufs := some {
            iq := List.replicate len.toNat none
            ph := List.replicate (len.toNat / 2) none
            spec := List.replicate (len.toNat / 2 / 2 + 1) none
            fspec := List.replicate (len.toNat / 2) none
            fsig := List.replicate (len.toNat / 2) none
            obuf := List.replicate ((len.toNat / 2 - 1) / 5 + 1) none }
          planValid := true
          st := .ready }
      else
        { s with
          chunkLen := len
          err := .res
          st := .fault
          stage := 0
          planValid := false
          bufs := none
          nReg := 0
          cutoffReg := 0
          noutReg := 0 }) ∧
      exec (.init len) s = .next (initWith capacity len s)

/-- 00_scope R7, 40_init R123, 43_decim R191: after a successful INIT the registers hold the derived sizes, none cut off by its
width: `2 N = L`, `CUTOFF = floor(N / 14)`, `NOUT = ceil(N / 5)`, and the last index DECIM reads lies in FSIG. -/
def Obligations.InitDerivedSizes : Prop :=
  ∀ (cap : Capacity) (len : BitVec 28) (s : State), s.st = .idle → (initWith cap len s).st = .ready →
    2 * (initWith cap len s).nReg.toNat = len.toNat ∧ 1 ≤ (initWith cap len s).nReg.toNat ∧
      14 * (initWith cap len s).cutoffReg.toNat ≤ (initWith cap len s).nReg.toNat ∧
      (initWith cap len s).nReg.toNat < 14 * ((initWith cap len s).cutoffReg.toNat + 1) ∧
      (initWith cap len s).nReg.toNat ≤ 5 * (initWith cap len s).noutReg.toNat ∧
      5 * ((initWith cap len s).noutReg.toNat - 1) ≤ (initWith cap len s).nReg.toNat - 1

/-- 44_driver R210: RUN in READY. -/
def Obligations.RunStartsTheLoop : Prop :=
  ∀ s : State, s.st = .ready → exec .run s = .next { s with st := .running, stage := 3#4 }

/-! ## FETCH and RELEASE -/

/-- 44_driver R212, 20_memory R66: a fill that obtained exactly `L` bytes fills IQBUF in arrival order and goes on to DEMOD; nothing
else changes but the answer consumed. -/
def Obligations.FetchStoresChunk : Prop :=
  ∀ (s : State) (b : Buffers) (bytes : List Byte) (rest : List FillAnswer),
    s.bufs = some b → b.iq.length = s.chunkLen.toNat → s.source = .obtained bytes :: rest → bytes.length = s.chunkLen.toNat →
    exec .fetch s = .next { s with
      source := rest
      bufs := some { b with iq := bytes.map some }
      stage := 4#4 }

/-- 44_driver R213, R216, 20_memory R64: any other answer is end of stream: EOS, STAGE = RELEASE, IQBUF of the same length with
contents nothing is said of, everything else unchanged; the answer is consumed and no retry is made. -/
def Obligations.FetchEndsOnFailure : Prop :=
  ∀ (s : State) (b : Buffers) (a : FillAnswer) (rest : List FillAnswer),
    s.bufs = some b → s.source = a :: rest → (∀ bytes, a = .obtained bytes → bytes.length ≠ s.chunkLen.toNat) →
    ∃ iq', iq'.length = b.iq.length ∧
      exec .fetch s = .next { s with
        source := rest
        eos := true
        bufs := some { b with iq := iq' }
        stage := 10#4
        freeCount := s.freeCount + 1 }

/-- 44_driver R214: RELEASE, and all that it keeps. -/
def Obligations.ReleaseEndsTheRun : Prop :=
  ∀ s : State, exec .release s = .next { s with planValid := false, bufs := none, st := .done, stage := 0#4 }

/-! ## DEMOD -/

/-- 41_demod R140, for this machine's NUM: PH holds the phase values of the chunk's samples, PREV the last sample, and nothing else
but STAGE changes. -/
def Obligations.DemodWritesPhases : Prop :=
  ∀ (s : State) (b : Buffers) (bytes : List Byte),
    s.bufs = some b → b.iq = bytes.map some → bytes.length = 2 * s.nReg.toNat → b.ph.length = s.nReg.toNat →
    exec .demod s = .next { s with
      bufs := some { b with
        ph := (phases numOps (s.prevRe.toInt, s.prevIm.toInt) (samplesOf bytes)).map some }
      prevRe := BitVec.ofInt 9 (lastSample (s.prevRe.toInt, s.prevIm.toInt) (samplesOf bytes)).1
      prevIm := BitVec.ofInt 9 (lastSample (s.prevRe.toInt, s.prevIm.toInt) (samplesOf bytes)).2
      stage := 5#4 }

/-- 41_demod R140 to R144, for every numerics: phase value `n` of a chunk is the angle of sample `n`, bytes `2n` and `2n + 1` less
127, times the conjugate of the sample before it, which for `n = 0` is PREV. There are exactly `N` of them. -/
def Obligations.PhaseValueByIndex : Prop :=
  ∀ (V : Type) (o : NumOps V) (c d : Int) (bytes : List Byte) (N : Nat), bytes.length = 2 * N →
    (phases o (c, d) (samplesOf bytes)).length = N ∧
      ∀ n, n < N →
        (phases o (c, d) (samplesOf bytes))[n]? = some (
          let a : Int := (bytes.getD (2 * n) 0).toNat - 127
          let b : Int := (bytes.getD (2 * n + 1) 0).toNat - 127
          let c' : Int := if n = 0 then c else (bytes.getD (2 * n - 2) 0).toNat - 127
          let d' : Int := if n = 0 then d else (bytes.getD (2 * n - 1) 0).toNat - 127
          o.arg2 (b * c' - a * d') (a * c' + b * d'))

/-- 41_demod R145: after DEMOD, PREV is the last complex sample of the chunk, whatever it was before. -/
def Obligations.DemodCarriesLastSample : Prop :=
  ∀ (s : State) (b : Buffers) (bytes : List Byte),
    s.bufs = some b → b.iq = bytes.map some → bytes.length = 2 * s.nReg.toNat → b.ph.length = s.nReg.toNat →
    1 ≤ s.nReg.toNat →
    ∃ t, exec .demod s = .next t ∧
      t.prevRe.toInt = ((bytes.getD (bytes.length - 2) 0).toNat : Int) - 127 ∧
      t.prevIm.toInt = ((bytes.getD (bytes.length - 1) 0).toNat : Int) - 127

/-- 41_demod R146: the phase values of a stream do not depend on where it is cut into chunks, the last sample carried across the
cut. -/
def Obligations.PhasesContinuousAcrossChunks : Prop :=
  ∀ (V : Type) (o : NumOps V) (prev : Int × Int) (x y : List Byte), x.length % 2 = 0 →
    phases o prev (samplesOf (x ++ y)) =
        phases o prev (samplesOf x) ++ phases o (lastSample prev (samplesOf x)) (samplesOf y) ∧
      lastSample prev (samplesOf (x ++ y)) = lastSample (lastSample prev (samplesOf x)) (samplesOf y)

/-- 41_demod R147: the product is zero exactly when the current or the previous sample is, and the phase value is then exactly zero,
under every numerics. -/
def Obligations.DegeneratePhaseIsZero : Prop :=
  ∀ a b c d : Int,
    ((productRe a b c d = 0 ∧ productIm a b c d = 0) ↔ ((a = 0 ∧ b = 0) ∨ (c = 0 ∧ d = 0))) ∧
      (((a = 0 ∧ b = 0) ∨ (c = 0 ∧ d = 0)) →
        ∀ (V : Type) (num : Numerics V), phases num.toNumOps (c, d) [(a, b)] = [num.zero])

/-- 45_arithmetic R230, R231: the components of bytes lie in -127 .. 128, the parts of the product of any two samples in 17 bits,
with the bounds the rule gives and the operands that reach them. -/
def Obligations.ProductNeverOverflows : Prop :=
  (∀ x : Byte, -127 ≤ component x ∧ component x ≤ 128) ∧
    component 0 = -127 ∧ component 127 = 0 ∧ component 255 = 128 ∧
    (∀ a b c d : Int, (-127 ≤ a ∧ a ≤ 128) → (-127 ≤ b ∧ b ≤ 128) → (-127 ≤ c ∧ c ≤ 128) → (-127 ≤ d ∧ d ≤ 128) →
      productRe a b c d = a * c + b * d ∧ productIm a b c d = b * c - a * d ∧
        |a * c| ≤ 16384 ∧ |productRe a b c d| ≤ 32768 ∧ |productIm a b c d| ≤ 32640) ∧
    productRe 128 128 128 128 = 32768 ∧ productIm 128 128 128 128 = 0 ∧ productIm 128 128 128 (-127) = 32640

/-- 45_arithmetic R236 with 00_scope R10: the case split of ARG2 is the angle in `(-pi, pi]` of the complex number `re + j im`, 0 at
zero. -/
def Obligations.AngleIsArgument : Prop :=
  ∀ im re : Int, arg2Exact im re = Complex.arg ⟨(re : ℝ), (im : ℝ)⟩

/-- 45_arithmetic R236 (the reflection laws), 41_demod R149 (a) and (c): scaling both arguments by a positive integer keeps the
exact angle; negating the imaginary part, which exchanging the two samples does, negates it but on the negative real axis, where
both are `pi`. -/
def Obligations.AngleReflectionLaws : Prop :=
  (∀ im re : Int, ¬(im = 0 ∧ re < 0) → arg2Exact (-im) re = -arg2Exact im re) ∧
    (∀ re : Int, re < 0 → arg2Exact 0 re = Real.pi) ∧
    (∀ t im re : Int, 0 < t → arg2Exact (t * im) (t * re) = arg2Exact im re) ∧
    (∀ a b c d : Int, productRe c d a b = productRe a b c d ∧ productIm c d a b = -productIm a b c d)

/-- 45_arithmetic R239 and R240 (b), for every numerics, chunk and sample before it: each phase value is within EPS_ARG of the exact
angle; each output sample truncates a real number within the accumulated error of the exact scaled value `v`; where `v` is farther
than that from every boundary of truncation the sample is the exact one; and where the accumulated error is at most 1 the integers
differ by at most one, and the samples by at most one or, at a wrap boundary, by 65535. The form of the accumulated error and
EPS_SCALE are the model's, log entries 21 and 24; that negation is exact is log entry 23. -/
def Obligations.PhaseAndSampleAccuracy : Prop :=
  ∀ (V : Type) (num : Numerics V) (p q : Byte) (bytes : List Byte) (ph : List V) (phx : List ℝ),
    ph = phases num.toNumOps (component p, component q) (samplesOf bytes) →
    phx = phases exactOps (component p, component q) (samplesOf bytes) →
    List.Forall₂ (fun v x => |num.val v - x| ≤ num.epsArg) ph phx ∧
      ∀ N m, 1 ≤ N → bytes.length = 2 * N → m < noutOf N →
        (∃ w : ℝ, |w - exactScaled N phx m| ≤ accumulatedError num N ∧ scaledSample num.toNumOps N ph m = truncReal w) ∧
          (ClearOfBoundaries (accumulatedError num N) (exactScaled N phx m) →
            scaledSample num.toNumOps N ph m = truncReal (exactScaled N phx m) ∧
              (chunkSamples num.toNumOps N ph)[m]? = (chunkSamples exactOps N phx)[m]?) ∧
          (accumulatedError num N ≤ 1 →
            |scaledSample num.toNumOps N ph m - truncReal (exactScaled N phx m)| ≤ 1 ∧
              ∃ u w : Sample, (chunkSamples num.toNumOps N ph)[m]? = some u ∧ (chunkSamples exactOps N phx)[m]? = some w ∧
                (|u.toInt - w.toInt| ≤ 1 ∨ |u.toInt - w.toInt| = 65535))

/-! ## RFFT, MASK, IRFFT -/

/-- 42_lpf R160, R162, for this machine's NUM: RFFT writes the transform of PH to SPEC and changes nothing else but STAGE. -/
def Obligations.RfftWritesSpectrum : Prop :=
  ∀ (s : State) (b : Buffers) (ph : List Code),
    s.planValid = true → s.bufs = some b → b.ph = ph.map some → ph.length = s.nReg.toNat →
    b.spec.length = s.nReg.toNat / 2 + 1 →
    exec .rfft s = .next { s with
      bufs := some { b with spec := (rfftList numOps s.nReg.toNat ph).map some }
      stage := 6#4 }

/-- 42_lpf R165, R166: MASK writes every one of the `N` bins of FSPEC: the passband copied, its mirror conjugated, the rest zero;
and changes nothing else but STAGE. Only the bins below CUTOFF need be written in SPEC. -/
def Obligations.MaskWritesFilteredSpectrum : Prop :=
  ∀ (s : State) (b : Buffers) (spec : Nat → Code × Code),
    s.bufs = some b → s.cutoffReg.toNat = s.nReg.toNat / 14 → b.fspec.length = s.nReg.toNat →
    (∀ k, 1 ≤ k → k < s.cutoffReg.toNat → b.spec[k]? = some (some (spec k))) →
    exec .mask s = .next { s with
      bufs := some { b with
        fspec := (List.range s.nReg.toNat).map fun (k : Nat) =>
          if 1 ≤ k ∧ (k : Int) ≤ (s.cutoffReg.toNat : Int) - 1 then some (spec k)
          else if (s.nReg.toNat : Int) - s.cutoffReg.toNat + 1 ≤ k ∧ (k : Int) ≤ (s.nReg.toNat : Int) - 1 then
            some ((spec (s.nReg.toNat - k)).1, numOps.neg (spec (s.nReg.toNat - k)).2)
          else some (numOps.zero, numOps.zero) }
      stage := 7#4 }

/-- 42_lpf R172, R176, for this machine's NUM: IRFFT writes the inverse transform of FSPEC to FSIG and changes nothing else but
STAGE. -/
def Obligations.IrfftWritesFilteredSignal : Prop :=
  ∀ (s : State) (b : Buffers) (fspec : List (Code × Code)),
    s.planValid = true → s.bufs = some b → b.fspec = fspec.map some → fspec.length = s.nReg.toNat →
    b.fsig.length = s.nReg.toNat →
    exec .irfft s = .next { s with
      bufs := some { b with fsig := (irfftList numOps s.nReg.toNat fspec).map some }
      stage := 8#4 }

/-- 42_lpf R169: after MASK, bin 0 and bin `N/2` are zero, and every other bin's mirror is its conjugate; where both are zero bins
they are equal, and the conjugate of a zero bin stands for zero too. For every numerics. -/
def Obligations.MaskIsHermitian : Prop :=
  ∀ (V : Type) (num : Numerics V) (N : Nat) (spec : Nat → V × V),
    maskBin num.toNumOps N (cutoffOf N) spec 0 = (num.zero, num.zero) ∧
      (N % 2 = 0 → maskBin num.toNumOps N (cutoffOf N) spec (N / 2) = (num.zero, num.zero)) ∧
      ∀ k, 1 ≤ k → k < N →
        maskBin num.toNumOps N (cutoffOf N) spec (N - k) = num.conj (maskBin num.toNumOps N (cutoffOf N) spec k) ∨
          (maskBin num.toNumOps N (cutoffOf N) spec (N - k) = (num.zero, num.zero) ∧
            maskBin num.toNumOps N (cutoffOf N) spec k = (num.zero, num.zero) ∧
            num.val (num.conj (num.zero, num.zero)).1 = 0 ∧ num.val (num.conj (num.zero, num.zero)).2 = 0)

/-- 42_lpf R168, 70_reset R312: for `1 <= N <= 27` MASK zeroes every bin and every output sample is 0, whatever the phase values and
whatever the numerics; for `N = 28` bin 1 and its mirror pass. -/
def Obligations.SmallSizesAreSilent : Prop :=
  (∀ (V : Type) (num : Numerics V) (N : Nat) (ph : List V), 1 ≤ N → N ≤ 27 →
    maskList num.toNumOps N (cutoffOf N) (rfftList num.toNumOps N ph) = List.replicate N (num.zero, num.zero) ∧
      chunkSamples num.toNumOps N ph = List.replicate (noutOf N) 0#16) ∧
    (∀ k, k < 28 → (binSource 28 (cutoffOf 28) k ≠ .zero ↔ k = 1 ∨ k = 27))

/-- 42_lpf R161 (a) to (d) and (f), for the sum of R160: bin 0 is the sum, bin `N/2` the alternating sum, mirrors are conjugates,
the transform is linear, and a constant goes to bin 0 alone. -/
def Obligations.ForwardTransformProperties : Prop :=
  ∀ (N : Nat) (x y : Fin N → ℝ), 1 ≤ N →
    dftExact N x 0 = ((∑ n, x n : ℝ) : ℂ) ∧
      (N % 2 = 0 → dftExact N x (N / 2) = ((∑ n : Fin N, (-1) ^ n.val * x n : ℝ) : ℂ)) ∧
      (∀ k, k ≤ N → dftExact N x (N - k) = (starRingEnd ℂ) (dftExact N x k)) ∧
      (∀ k, dftExact N (fun n => x n + y n) k = dftExact N x k + dftExact N y k) ∧
      (∀ (c : ℝ) (k : Nat), 1 ≤ k → k < N → dftExact N (fun _ => c) k = 0) ∧
      (∀ c : ℝ, dftExact N (fun _ => c) 0 = ((N * c : ℝ) : ℂ))

/-- 42_lpf R161 (g): under the opposite sign convention of both transforms the filtered signal is the same. -/
def Obligations.SignConventionUnobservable : Prop :=
  ∀ (N : Nat) (ph : List ℝ), lowPass exactOpsOtherSign N ph = lowPass exactOps N ph

/-- 42_lpf R172: on a Hermitian-symmetric spectrum the full sum and the half-spectrum form agree. -/
def Obligations.HalfSpectrumFormAgrees : Prop :=
  ∀ (N : Nat) (hN : 0 < N) (F : Fin N → ℂ), (F ⟨0, hN⟩).im = 0 →
    (∀ (k : Nat) (h₁ : 1 ≤ k) (h₂ : k < N), F ⟨N - k, by omega⟩ = (starRingEnd ℂ) (F ⟨k, h₂⟩)) →
    ∀ n, n < N →
      idftExact N F n = (F ⟨0, hN⟩).re
        + 2 * (∑ k : Fin N, if 1 ≤ k.val ∧ 2 * k.val < N then
            (F k * unitRoot ((k.val : ℝ) * (n : ℝ) / (N : ℝ))).re else 0)
        + (if N % 2 = 0 then (-1) ^ n * (F ⟨N / 2, by omega⟩).re else 0)

/-- 42_lpf R173: under exact arithmetic the filtered signal is the sum over the passband that the rule gives, and it is the circular
convolution of the chunk's phase values with the kernel `D`. -/
def Obligations.FilterIsCircularConvolution : Prop :=
  ∀ (N : Nat) (ph : List ℝ), 1 ≤ N → ph.length = N → ∀ n, n < N →
    (lowPass exactOps N ph)[n]? =
        some (2 * ∑ k ∈ Finset.Ico 1 (cutoffOf N),
          ((dftExact N (fun m => ph.getD m.val 0) k).re * Real.cos (2 * Real.pi * (k : ℝ) * (n : ℝ) / (N : ℝ))
            - (dftExact N (fun m => ph.getD m.val 0) k).im * Real.sin (2 * Real.pi * (k : ℝ) * (n : ℝ) / (N : ℝ)))) ∧
      (lowPass exactOps N ph)[n]? =
        some (∑ m : Fin N, ph.getD m.val 0 * filterKernel N ((n + N - m.val) % N))

/-- 42_lpf R175: under exact arithmetic a cosine in bin `1 .. CUTOFF - 1` comes out multiplied by `N`, and one in bin 0 or in bin
`CUTOFF .. floor(N/2)` comes out as zero. -/
def Obligations.FilterProperty : Prop :=
  ∀ (N f : Nat) (A p : ℝ),
    (1 ≤ f → f + 1 ≤ cutoffOf N → lowPass exactOps N (tone N A f p) = (tone N A f p).map fun y => (N : ℝ) * y) ∧
      (1 ≤ N → f = 0 ∨ (cutoffOf N ≤ f ∧ f ≤ N / 2) → lowPass exactOps N (tone N A f p) = List.replicate N 0)

/-! ## DECIM and EMIT -/

/-- 43_decim R190, R195, for this machine's NUM: output sample `m` is the narrowed scaled `FSIG[5m]`; only those elements need be
written, and nothing else but STAGE changes. -/
def Obligations.DecimWritesOutputChunk : Prop :=
  ∀ (s : State) (b : Buffers) (fsig : Nat → Code),
    s.bufs = some b → b.obuf.length = s.noutReg.toNat →
    (∀ m, m < s.noutReg.toNat → b.fsig[5 * m]? = some (some (fsig m))) →
    exec .decim s = .next { s with
      bufs := some { b with
        obuf := (List.range s.noutReg.toNat).map fun m => some (narrow (numOps.scale s.nReg.toNat (fsig m))) }
      stage := 9#4 }

/-- 43_decim R192 to R194 with 42_lpf R175: under exact arithmetic the output samples of a phase signal in the passband are
`wrap16(trunc(10000 * PH[5m]))`: the gain from phase to output is SCALE. -/
def Obligations.PassbandOutputGain : Prop :=
  ∀ (N f : Nat) (A p : ℝ), 1 ≤ f → f + 1 ≤ cutoffOf N →
    chunkSamples exactOps N (tone N A f p) =
      (List.range (noutOf N)).map fun m => narrow (truncReal (10000 * (tone N A f p).getD (5 * m) 0))

/-- 45_arithmetic R234: truncation is toward zero, odd, idempotent on integers, within one of its argument, with the corner cases
the rule lists. -/
def Obligations.TruncationLaws : Prop :=
  (∀ x : ℝ, truncReal (-x) = -truncReal x) ∧
    (∀ z : Int, truncReal (z : ℝ) = z) ∧
    (∀ x : ℝ, |(truncReal x : ℝ)| ≤ |x| ∧ |x| < |(truncReal x : ℝ)| + 1) ∧
    (∀ x : ℝ, truncReal x = (SignType.sign x : Int) * ⌊|x|⌋) ∧
    truncReal 0 = 0 ∧ truncReal (-0.5) = 0 ∧ truncReal 32767.999 = 32767 ∧ truncReal 32768 = 32768 ∧ truncReal (-32768.999) = -32768

/-- 45_arithmetic R235, 43_decim R194: narrowing keeps the low 16 bits of the two's complement, is the identity on -32768 .. 32767
and periodic with period 65536, and does not saturate. -/
def Obligations.NarrowingWraps : Prop :=
  ∀ z : Int,
    (narrow z).toInt = (z + 32768) % 65536 - 32768 ∧
      (narrow z).toNat = (z % 65536).toNat ∧
      (-32768 ≤ z → z ≤ 32767 → (narrow z).toInt = z) ∧
      narrow (z + 65536) = narrow z ∧
      (narrow 32768).toInt = -32768 ∧ (narrow 40000).toInt = -25536 ∧ (narrow (-32769)).toInt = 32767

/-- 43_decim R197, R198, 20_memory R61, R68: EMIT appends the whole Output Chunk, `2 * NOUT` bytes, sample `m` at bytes `2m` (low)
and `2m + 1` (high), after everything the sink holds, and changes nothing else but STAGE. -/
def Obligations.EmitAppendsChunk : Prop :=
  ∀ (s : State) (b : Buffers) (out : List Sample),
    s.sinkReady = true → s.bufs = some b → b.obuf = out.map some → out.length = s.noutReg.toNat →
    ∃ bytes : List Byte,
      exec .emit s = .next { s with sink := s.sink ++ bytes, stage := 3#4 } ∧
        bytes.length = 2 * s.noutReg.toNat ∧
        ∀ m, m < s.noutReg.toNat →
          ((bytes.getD (2 * m) 0).toNat = (out.getD m 0).toNat % 256) ∧
            ((bytes.getD (2 * m + 1) 0).toNat = (out.getD m 0).toNat / 256)

/-- 20_memory R67, R69, 43_decim R199, 60_exceptions R281: while the source has not answered FETCH keeps all state, and while the
sink does not accept EMIT does. That such a wait is a step that changes nothing is the model's choice, log entry 6. -/
def Obligations.WaitingKeepsAllState : Prop :=
  (∀ s : State, s.source = [] → exec .fetch s = .next s) ∧ ∀ s : State, s.sinkReady = false → exec .emit s = .next s

/-! ## Stops of the model -/

/-- 93 U8 and U12: a stage operation that needs buffers or plans which do not exist, and the sequencer's turn with ST = RUNNING and a
STAGE code that is no stage operation, stop the model by fault. RFFT and IRFFT without plans name the plans whether or not the buffers
exist: that order is the model's choice, log entry 19; the names of the faults are log entry 12. -/
def Obligations.ImpossibleStatesFault : Prop :=
  (∀ s : State, s.bufs = none →
    exec .demod s = .fault .buffersAbsent ∧ exec .mask s = .fault .buffersAbsent ∧
      exec .decim s = .fault .buffersAbsent ∧
      (s.planValid = true → exec .rfft s = .fault .buffersAbsent ∧ exec .irfft s = .fault .buffersAbsent) ∧
      (s.sinkReady = true → exec .emit s = .fault .buffersAbsent) ∧
      (s.source ≠ [] → exec .fetch s = .fault .buffersAbsent)) ∧
    (∀ s : State, s.planValid = false → exec .rfft s = .fault .plansAbsent ∧ exec .irfft s = .fault .plansAbsent) ∧
    ∀ s : State, engineNext s = true → s.st = .running → s.stage.toNat < 3 ∨ 10 < s.stage.toNat →
      step s = .fault (.reservedStage s.stage)

/-- 10_state R38, D28, U5: each operation that reads a buffer stops the model, by fault, on an element that it reads and that holds
no value: DEMOD on IQBUF, RFFT on PH, MASK on SPEC (the bins 1 to CUTOFF - 1, which are all it reads), IRFFT on FSPEC, DECIM on
FSIG[5m], EMIT on OBUF. That the fault names the first such element in the order of the rule's loop is the model's choice, log entry
19; that MASK and DECIM read no other element is log entry 17; the name of the fault is log entry 12. -/
def Obligations.UnwrittenElementFaults : Prop :=
  ∀ (s : State) (b : Buffers) (i : Nat), s.bufs = some b →
    ((∀ j, j < i → ∃ v, b.iq[j]? = some (some v)) → b.iq[i]? = some none → i < 2 * s.nReg.toNat →
        exec .demod s = .fault (.unwritten .iqbuf i)) ∧
      ((∀ j, j < i → ∃ v, b.ph[j]? = some (some v)) → b.ph[i]? = some none → i < s.nReg.toNat → s.planValid = true →
        exec .rfft s = .fault (.unwritten .ph i)) ∧
      ((∀ j, 1 ≤ j → j < i → ∃ v, b.spec[j]? = some (some v)) → b.spec[i]? = some none → 1 ≤ i → i < s.cutoffReg.toNat →
        s.cutoffReg.toNat = s.nReg.toNat / 14 → exec .mask s = .fault (.unwritten .spec i)) ∧
      ((∀ j, j < i → ∃ v, b.fspec[j]? = some (some v)) → b.fspec[i]? = some none → i < s.nReg.toNat → s.planValid = true →
        exec .irfft s = .fault (.unwritten .fspec i)) ∧
      ((∀ j, j < i → ∃ v, b.fsig[5 * j]? = some (some v)) → b.fsig[5 * i]? = some none → i < s.noutReg.toNat →
        exec .decim s = .fault (.unwritten .fsig (5 * i))) ∧
      ((∀ j, j < i → ∃ v, b.obuf[j]? = some (some v)) → b.obuf[i]? = some none → i < s.noutReg.toNat →
        s.sinkReady = true → exec .emit s = .fault (.unwritten .obuf i))

/-! ## The whole machine -/

/-- The invariant (10_state R21, R23, R24, R29, R30, R38, R40; 60_exceptions R273) holds after reset. -/
def Obligations.ResetMeetsInvariant : Prop :=
  Inv State.reset

/-- 10_state R38 with R21, R24, R29, R30: from every state that meets the invariant a step neither faults nor is refused, and the
next state meets it: no read of an element without a value, no absent buffer, no reserved code. -/
def Obligations.StepKeepsInvariant : Prop :=
  ∀ s : State, Inv s → ∃ t, step s = .next t ∧ Inv t

/-- 10_state R29, 40_init R122: whatever chunk length READY, RUNNING and DONE hold has passed the resource check. -/
def Obligations.StepKeepsAdmitted : Prop :=
  Admitted State.reset ∧ ∀ s t : State, Admitted s → step s = .next t → Admitted t

/-- 44_driver R215: the transitions of ST; reset leads to IDLE from anywhere, and no other exists than the table's. -/
def Obligations.DriverStateTransitions : Prop :=
  ∀ s t : State, step s = .next t →
    (resetNext s = true → t.st = .idle) ∧ (resetNext s = false → Transition s.st t.st)

/-- 44_driver R211: while ST stays RUNNING, STAGE stays or moves to the successor the table gives, the one branch being after FETCH. -/
def Obligations.StageSuccessors : Prop :=
  ∀ s t : State, step s = .next t → s.st = .running → t.st = .running →
    t.stage = s.stage ∨ (s.stage = opcode .fetch ∧ (t.stage = opcode .demod ∨ t.stage = opcode .release)) ∨
      (s.stage = opcode .demod ∧ t.stage = opcode .rfft) ∨ (s.stage = opcode .rfft ∧ t.stage = opcode .mask) ∨
      (s.stage = opcode .mask ∧ t.stage = opcode .irfft) ∨ (s.stage = opcode .irfft ∧ t.stage = opcode .decim) ∨
      (s.stage = opcode .decim ∧ t.stage = opcode .emit) ∨ (s.stage = opcode .emit ∧ t.stage = opcode .fetch)

/-- 10_state R21: PREV is written by DEMOD and by reset, and by nothing else. -/
def Obligations.OnlyDemodWritesPrev : Prop :=
  ∀ s t : State, step s = .next t → resetNext s = false →
    ¬(engineNext s = true ∧ s.st = .running ∧ s.stage = opcode .demod) → t.prevRe = s.prevRe ∧ t.prevIm = s.prevIm

/-- 20_memory R69, 10_state R42: the sink is append-only, and only in EMIT, or in a reset that interrupts it, does it receive
anything. -/
def Obligations.SinkIsAppendOnly : Prop :=
  ∀ s t : State, step s = .next t →
    ∃ bytes, t.sink = s.sink ++ bytes ∧ (bytes ≠ [] → s.st = .running ∧ s.stage = opcode .emit)

/-- 10_state R25, 60_exceptions R273: EOS and CMD_ERR are cleared by reset only; outside IDLE, ERR is written by reset only and
PLAN_VALID is cleared by RELEASE or reset only. -/
def Obligations.FlagsAreSticky : Prop :=
  ∀ s t : State, step s = .next t → resetNext s = false →
    (s.eos = true → t.eos = true) ∧ (s.cmdErr = true → t.cmdErr = true) ∧
      (s.st ≠ .idle → t.err = s.err) ∧
      (s.st ≠ .idle → s.planValid = true → t.planValid = false → s.st = .running ∧ s.stage = opcode .release)

/-- 10_state R29, R30, 20_memory R76: outside IDLE nothing but reset writes the configuration registers. -/
def Obligations.ConfigurationIsConstant : Prop :=
  ∀ s t : State, step s = .next t → resetNext s = false → s.st ≠ .idle →
    t.chunkLen = s.chunkLen ∧ t.nReg = s.nReg ∧ t.cutoffReg = s.cutoffReg ∧ t.noutReg = s.noutReg

/-- 60_exceptions R265, R270, 10_state R31: while ST = RUNNING no host access, whatever the register and the word, disturbs the run:
CMD_ERR and the value returned are all that can change. -/
def Obligations.HostCannotDisturbRun : Prop :=
  ∀ (s : State) (i : Input) (rest : List Input), s.st = .running → s.inputs = i :: rest →
    (∃ reg value, i = .ctlWrite reg value) ∨ (∃ reg, i = .ctlRead reg) →
    ∃ (refused : Bool) (data : Word), step s = .next { s with inputs := rest, cmdErr := refused, hostData := data }

/-- 44_driver R219, 60_exceptions R273: DONE and FAULT are left by reset only: any other step keeps every piece of Engine state but
CMD_ERR, and the sink's bytes. -/
def Obligations.DoneAndFaultAreTerminal : Prop :=
  ∀ s : State, s.st = .done ∨ s.st = .fault → resetNext s = false →
    ∃ t, step s = .next t ∧ t.sink = s.sink ∧
      t = { s with
        cmdErr := t.cmdErr, source := t.source, sinkReady := t.sinkReady, inputs := t.inputs, hostData := t.hostData }

/-- 44_driver R211, R220, 43_decim R198: seven steps from FETCH, with the fill answered and the sink accepting, append exactly
`chunk(prev, b)` to the sink, carry PREV and come back to FETCH with the configuration, the plans and buffers of the same sizes. -/
def Obligations.ChunkInSevenSteps : Prop :=
  ∀ (s : State) (b : Buffers) (bytes : List Byte) (rest : List FillAnswer),
    s.st = .running → s.stage = opcode .fetch → s.inputs = [] → s.sinkReady = true → s.planValid = true →
    Configured s → s.bufs = some b → Shaped s b →
    s.source = .obtained bytes :: rest → bytes.length = s.chunkLen.toNat →
    ∃ b', Shaped s b' ∧
      Sys2Proof.core.run 7 s = .next { s with
        source := rest
        sink := s.sink ++ (chunk numOps s.nReg.toNat s.prev bytes).1
        prevRe := BitVec.ofInt 9 (chunk numOps s.nReg.toNat s.prev bytes).2.1
        prevIm := BitVec.ofInt 9 (chunk numOps s.nReg.toNat s.prev bytes).2.2
        bufs := some b' } ∧
      (chunk numOps s.nReg.toNat s.prev bytes).1.length = 2 * s.noutReg.toNat

/-- 44_driver R220, R213, R214, R219: the whole run from FETCH: the fills answered by `C` chunks and then by a failure, the machine
reaches DONE in `7 C + 2` steps with the outputs of the chunks, in order, appended to the sink, PREV the last sample of the last
chunk, and the answers consumed in order. -/
def Obligations.WholeRunReachesDone : Prop :=
  ∀ (s : State) (b : Buffers) (input : List (List Byte)) (a : FillAnswer) (rest : List FillAnswer),
    s.st = .running → s.stage = opcode .fetch → s.inputs = [] → s.sinkReady = true → s.planValid = true →
    Configured s → s.bufs = some b → Shaped s b →
    (∀ x ∈ input, x.length = s.chunkLen.toNat) →
    (∀ bytes, a = .obtained bytes → bytes.length ≠ s.chunkLen.toNat) →
    s.source = input.map .obtained ++ a :: rest →
    Sys2Proof.core.run (7 * input.length + 2) s = .next { s with
      st := .done
      stage := 0
      eos := true
      planValid := false
      bufs := none
      source := rest
      sink := s.sink ++ (chunks numOps s.nReg.toNat s.prev input).1
      prevRe := BitVec.ofInt 9 (chunks numOps s.nReg.toNat s.prev input).2.1
      prevIm := BitVec.ofInt 9 (chunks numOps s.nReg.toNat s.prev input).2.2
      freeCount := s.freeCount + 1 }

/-- 44_driver R220, 60_exceptions R262, R271: the run started from reset by `INIT L ; RUN`. Where the capacity admits `N`, it ends
in DONE with the outputs of the chunks appended to what the sink held; where it does not, in FAULT with E_RES, RUN refused, no
answer taken and the sink as it was. The Engine is at its reset values; the environment is any with a sink that accepts and holds
any bytes, so nothing rests on log entry 10; the host's writes and the sequencer's turns come by a script, the model's choice, log
entries 5 and 13. -/
def Obligations.RunFromReset : Prop :=
  ∀ (s : State) (len : BitVec 28) (input : List (List Byte)) (a : FillAnswer) (later : List FillAnswer),
    s = { State.reset with
      source := s.source, sink := s.sink, sinkReady := s.sinkReady, inputs := s.inputs, hostData := s.hostData,
      freeCount := s.freeCount } →
    s.sinkReady = true → s.inputs = [.ctlWrite 0 (0x1#4 ++ len), .ctlWrite 0 0x20000000#32] →
    s.source = input.map .obtained ++ a :: later →
    len.toNat ≠ 0 → len.toNat % 2 = 0 → (∀ x ∈ input, x.length = len.toNat) →
    (∀ bytes, a = .obtained bytes → bytes.length ≠ len.toNat) →
    ∃ t, Sys2Proof.core.run (2 + (7 * input.length + 2)) s = .next t ∧
      (if capacity.admits (len.toNat / 2) = true then
        t.st = .done ∧ t.eos = true ∧ t.err = .noError ∧ t.cmdErr = false ∧ t.source = later ∧
          t.sink = s.sink ++ (chunks numOps (len.toNat / 2) (0, 0) input).1 ∧
          (t.prevRe.toInt, t.prevIm.toInt) = (chunks numOps (len.toNat / 2) (0, 0) input).2
      else
        t.st = .fault ∧ t.err = .res ∧ t.cmdErr = true ∧ t.chunkLen = len ∧ t.source = s.source ∧ t.sink = s.sink)

/-- 45_arithmetic R240 (c) and the scenario of C1 in 90_conflicts: a chunk of bytes 127 gives only zero samples and leaves PREV
zero, whatever the sample before it, under every numerics. It rests on the reading of N-IZERO in log entry 2. -/
def Obligations.SilentChunkIsAllZero : Prop :=
  ∀ (V : Type) (num : Numerics V) (N : Nat) (prev : Int × Int), 1 ≤ N →
    chunk num.toNumOps N prev (List.replicate (2 * N) 127#8) = (List.replicate (2 * noutOf N) 0#8, (0, 0))
end

