-- ==== Sys2Proof/Laws/State.lean ====
section
/-! SUPPORT. One lemma per field for each named update of State, true by definition, so that no proof unfolds an update. -/

namespace Sys2Proof.Machine

@[simp] theorem advance_st (s : State) (b : Buffers) (i : Instr) : (s.advance b i).st = s.st := rfl
@[simp] theorem advance_stage (s : State) (b : Buffers) (i : Instr) : (s.advance b i).stage = opcode i := rfl
@[simp] theorem advance_err (s : State) (b : Buffers) (i : Instr) : (s.advance b i).err = s.err := rfl
@[simp] theorem advance_eos (s : State) (b : Buffers) (i : Instr) : (s.advance b i).eos = s.eos := rfl
@[simp] theorem advance_cmdErr (s : State) (b : Buffers) (i : Instr) : (s.advance b i).cmdErr = s.cmdErr := rfl
@[simp] theorem advance_planValid (s : State) (b : Buffers) (i : Instr) : (s.advance b i).planValid = s.planValid := rfl
@[simp] theorem advance_chunkLen (s : State) (b : Buffers) (i : Instr) : (s.advance b i).chunkLen = s.chunkLen := rfl
@[simp] theorem advance_nReg (s : State) (b : Buffers) (i : Instr) : (s.advance b i).nReg = s.nReg := rfl
@[simp] theorem advance_cutoffReg (s : State) (b : Buffers) (i : Instr) : (s.advance b i).cutoffReg = s.cutoffReg := rfl
@[simp] theorem advance_noutReg (s : State) (b : Buffers) (i : Instr) : (s.advance b i).noutReg = s.noutReg := rfl
@[simp] theorem advance_prevRe (s : State) (b : Buffers) (i : Instr) : (s.advance b i).prevRe = s.prevRe := rfl
@[simp] theorem advance_prevIm (s : State) (b : Buffers) (i : Instr) : (s.advance b i).prevIm = s.prevIm := rfl
@[simp] theorem advance_bufs (s : State) (b : Buffers) (i : Instr) : (s.advance b i).bufs = some b := rfl
@[simp] theorem advance_source (s : State) (b : Buffers) (i : Instr) : (s.advance b i).source = s.source := rfl
@[simp] theorem advance_sink (s : State) (b : Buffers) (i : Instr) : (s.advance b i).sink = s.sink := rfl
@[simp] theorem advance_sinkReady (s : State) (b : Buffers) (i : Instr) : (s.advance b i).sinkReady = s.sinkReady := rfl
@[simp] theorem advance_inputs (s : State) (b : Buffers) (i : Instr) : (s.advance b i).inputs = s.inputs := rfl
@[simp] theorem advance_hostData (s : State) (b : Buffers) (i : Instr) : (s.advance b i).hostData = s.hostData := rfl
@[simp] theorem advance_freeCount (s : State) (b : Buffers) (i : Instr) : (s.advance b i).freeCount = s.freeCount := rfl

@[simp] theorem refuseAccess_st (s : State) : (s.refuseAccess).st = s.st := rfl
@[simp] theorem refuseAccess_stage (s : State) : (s.refuseAccess).stage = s.stage := rfl
@[simp] theorem refuseAccess_err (s : State) : (s.refuseAccess).err = s.err := rfl
@[simp] theorem refuseAccess_eos (s : State) : (s.refuseAccess).eos = s.eos := rfl
@[simp] theorem refuseAccess_cmdErr (s : State) : (s.refuseAccess).cmdErr = true := rfl
@[simp] theorem refuseAccess_planValid (s : State) : (s.refuseAccess).planValid = s.planValid := rfl
@[simp] theorem refuseAccess_chunkLen (s : State) : (s.refuseAccess).chunkLen = s.chunkLen := rfl
@[simp] theorem refuseAccess_nReg (s : State) : (s.refuseAccess).nReg = s.nReg := rfl
@[simp] theorem refuseAccess_cutoffReg (s : State) : (s.refuseAccess).cutoffReg = s.cutoffReg := rfl
@[simp] theorem refuseAccess_noutReg (s : State) : (s.refuseAccess).noutReg = s.noutReg := rfl
@[simp] theorem refuseAccess_prevRe (s : State) : (s.refuseAccess).prevRe = s.prevRe := rfl
@[simp] theorem refuseAccess_prevIm (s : State) : (s.refuseAccess).prevIm = s.prevIm := rfl
@[simp] theorem refuseAccess_bufs (s : State) : (s.refuseAccess).bufs = s.bufs := rfl
@[simp] theorem refuseAccess_source (s : State) : (s.refuseAccess).source = s.source := rfl
@[simp] theorem refuseAccess_sink (s : State) : (s.refuseAccess).sink = s.sink := rfl
@[simp] theorem refuseAccess_sinkReady (s : State) : (s.refuseAccess).sinkReady = s.sinkReady := rfl
@[simp] theorem refuseAccess_inputs (s : State) : (s.refuseAccess).inputs = s.inputs := rfl
@[simp] theorem refuseAccess_hostData (s : State) : (s.refuseAccess).hostData = s.hostData := rfl
@[simp] theorem refuseAccess_freeCount (s : State) : (s.refuseAccess).freeCount = s.freeCount := rfl

@[simp] theorem raiseError_st (s : State) (e : ErrCode) : (s.raiseError e).st = .fault := rfl
@[simp] theorem raiseError_stage (s : State) (e : ErrCode) : (s.raiseError e).stage = 0 := rfl
@[simp] theorem raiseError_err (s : State) (e : ErrCode) : (s.raiseError e).err = e := rfl
@[simp] theorem raiseError_eos (s : State) (e : ErrCode) : (s.raiseError e).eos = s.eos := rfl
@[simp] theorem raiseError_cmdErr (s : State) (e : ErrCode) : (s.raiseError e).cmdErr = s.cmdErr := rfl
@[simp] theorem raiseError_planValid (s : State) (e : ErrCode) : (s.raiseError e).planValid = false := rfl
@[simp] theorem raiseError_chunkLen (s : State) (e : ErrCode) : (s.raiseError e).chunkLen = s.chunkLen := rfl
@[simp] theorem raiseError_nReg (s : State) (e : ErrCode) : (s.raiseError e).nReg = 0 := rfl
@[simp] theorem raiseError_cutoffReg (s : State) (e : ErrCode) : (s.raiseError e).cutoffReg = 0 := rfl
@[simp] theorem raiseError_noutReg (s : State) (e : ErrCode) : (s.raiseError e).noutReg = 0 := rfl
@[simp] theorem raiseError_prevRe (s : State) (e : ErrCode) : (s.raiseError e).prevRe = s.prevRe := rfl
@[simp] theorem raiseError_prevIm (s : State) (e : ErrCode) : (s.raiseError e).prevIm = s.prevIm := rfl
@[simp] theorem raiseError_bufs (s : State) (e : ErrCode) : (s.raiseError e).bufs = none := rfl
@[simp] theorem raiseError_source (s : State) (e : ErrCode) : (s.raiseError e).source = s.source := rfl
@[simp] theorem raiseError_sink (s : State) (e : ErrCode) : (s.raiseError e).sink = s.sink := rfl
@[simp] theorem raiseError_sinkReady (s : State) (e : ErrCode) : (s.raiseError e).sinkReady = s.sinkReady := rfl
@[simp] theorem raiseError_inputs (s : State) (e : ErrCode) : (s.raiseError e).inputs = s.inputs := rfl
@[simp] theorem raiseError_hostData (s : State) (e : ErrCode) : (s.raiseError e).hostData = s.hostData := rfl
@[simp] theorem raiseError_freeCount (s : State) (e : ErrCode) : (s.raiseError e).freeCount = s.freeCount := rfl

@[simp] theorem sinkAppend_st (s : State) (bytes : List Byte) : (s.sinkAppend bytes).st = s.st := rfl
@[simp] theorem sinkAppend_stage (s : State) (bytes : List Byte) : (s.sinkAppend bytes).stage = s.stage := rfl
@[simp] theorem sinkAppend_err (s : State) (bytes : List Byte) : (s.sinkAppend bytes).err = s.err := rfl
@[simp] theorem sinkAppend_eos (s : State) (bytes : List Byte) : (s.sinkAppend bytes).eos = s.eos := rfl
@[simp] theorem sinkAppend_cmdErr (s : State) (bytes : List Byte) : (s.sinkAppend bytes).cmdErr = s.cmdErr := rfl
@[simp] theorem sinkAppend_planValid (s : State) (bytes : List Byte) : (s.sinkAppend bytes).planValid = s.planValid := rfl
@[simp] theorem sinkAppend_chunkLen (s : State) (bytes : List Byte) : (s.sinkAppend bytes).chunkLen = s.chunkLen := rfl
@[simp] theorem sinkAppend_nReg (s : State) (bytes : List Byte) : (s.sinkAppend bytes).nReg = s.nReg := rfl
@[simp] theorem sinkAppend_cutoffReg (s : State) (bytes : List Byte) : (s.sinkAppend bytes).cutoffReg = s.cutoffReg := rfl
@[simp] theorem sinkAppend_noutReg (s : State) (bytes : List Byte) : (s.sinkAppend bytes).noutReg = s.noutReg := rfl
@[simp] theorem sinkAppend_prevRe (s : State) (bytes : List Byte) : (s.sinkAppend bytes).prevRe = s.prevRe := rfl
@[simp] theorem sinkAppend_prevIm (s : State) (bytes : List Byte) : (s.sinkAppend bytes).prevIm = s.prevIm := rfl
@[simp] theorem sinkAppend_bufs (s : State) (bytes : List Byte) : (s.sinkAppend bytes).bufs = s.bufs := rfl
@[simp] theorem sinkAppend_source (s : State) (bytes : List Byte) : (s.sinkAppend bytes).source = s.source := rfl
@[simp] theorem sinkAppend_sink (s : State) (bytes : List Byte) : (s.sinkAppend bytes).sink = s.sink ++ bytes := rfl
@[simp] theorem sinkAppend_sinkReady (s : State) (bytes : List Byte) : (s.sinkAppend bytes).sinkReady = s.sinkReady := rfl
@[simp] theorem sinkAppend_inputs (s : State) (bytes : List Byte) : (s.sinkAppend bytes).inputs = s.inputs := rfl
@[simp] theorem sinkAppend_hostData (s : State) (bytes : List Byte) : (s.sinkAppend bytes).hostData = s.hostData := rfl
@[simp] theorem sinkAppend_freeCount (s : State) (bytes : List Byte) : (s.sinkAppend bytes).freeCount = s.freeCount := rfl

@[simp] theorem setPrev_st (s : State) (p : Int × Int) : (s.setPrev p).st = s.st := rfl
@[simp] theorem setPrev_stage (s : State) (p : Int × Int) : (s.setPrev p).stage = s.stage := rfl
@[simp] theorem setPrev_err (s : State) (p : Int × Int) : (s.setPrev p).err = s.err := rfl
@[simp] theorem setPrev_eos (s : State) (p : Int × Int) : (s.setPrev p).eos = s.eos := rfl
@[simp] theorem setPrev_cmdErr (s : State) (p : Int × Int) : (s.setPrev p).cmdErr = s.cmdErr := rfl
@[simp] theorem setPrev_planValid (s : State) (p : Int × Int) : (s.setPrev p).planValid = s.planValid := rfl
@[simp] theorem setPrev_chunkLen (s : State) (p : Int × Int) : (s.setPrev p).chunkLen = s.chunkLen := rfl
@[simp] theorem setPrev_nReg (s : State) (p : Int × Int) : (s.setPrev p).nReg = s.nReg := rfl
@[simp] theorem setPrev_cutoffReg (s : State) (p : Int × Int) : (s.setPrev p).cutoffReg = s.cutoffReg := rfl
@[simp] theorem setPrev_noutReg (s : State) (p : Int × Int) : (s.setPrev p).noutReg = s.noutReg := rfl
@[simp] theorem setPrev_prevRe (s : State) (p : Int × Int) : (s.setPrev p).prevRe = BitVec.ofInt 9 p.1 := rfl
@[simp] theorem setPrev_prevIm (s : State) (p : Int × Int) : (s.setPrev p).prevIm = BitVec.ofInt 9 p.2 := rfl
@[simp] theorem setPrev_bufs (s : State) (p : Int × Int) : (s.setPrev p).bufs = s.bufs := rfl
@[simp] theorem setPrev_source (s : State) (p : Int × Int) : (s.setPrev p).source = s.source := rfl
@[simp] theorem setPrev_sink (s : State) (p : Int × Int) : (s.setPrev p).sink = s.sink := rfl
@[simp] theorem setPrev_sinkReady (s : State) (p : Int × Int) : (s.setPrev p).sinkReady = s.sinkReady := rfl
@[simp] theorem setPrev_inputs (s : State) (p : Int × Int) : (s.setPrev p).inputs = s.inputs := rfl
@[simp] theorem setPrev_hostData (s : State) (p : Int × Int) : (s.setPrev p).hostData = s.hostData := rfl
@[simp] theorem setPrev_freeCount (s : State) (p : Int × Int) : (s.setPrev p).freeCount = s.freeCount := rfl

@[simp] theorem configure_st (s : State) (n : Nat) : (s.configure n).st = .ready := rfl
@[simp] theorem configure_stage (s : State) (n : Nat) : (s.configure n).stage = s.stage := rfl
@[simp] theorem configure_err (s : State) (n : Nat) : (s.configure n).err = s.err := rfl
@[simp] theorem configure_eos (s : State) (n : Nat) : (s.configure n).eos = s.eos := rfl
@[simp] theorem configure_cmdErr (s : State) (n : Nat) : (s.configure n).cmdErr = s.cmdErr := rfl
@[simp] theorem configure_planValid (s : State) (n : Nat) : (s.configure n).planValid = true := rfl
@[simp] theorem configure_chunkLen (s : State) (n : Nat) : (s.configure n).chunkLen = s.chunkLen := rfl
@[simp] theorem configure_nReg (s : State) (n : Nat) : (s.configure n).nReg = BitVec.ofNat 32 n := rfl
@[simp] theorem configure_cutoffReg (s : State) (n : Nat) : (s.configure n).cutoffReg = BitVec.ofNat 32 (cutoffOf n) := rfl
@[simp] theorem configure_noutReg (s : State) (n : Nat) : (s.configure n).noutReg = BitVec.ofNat 32 (noutOf n) := rfl
@[simp] theorem configure_prevRe (s : State) (n : Nat) : (s.configure n).prevRe = s.prevRe := rfl
@[simp] theorem configure_prevIm (s : State) (n : Nat) : (s.configure n).prevIm = s.prevIm := rfl
@[simp] theorem configure_bufs (s : State) (n : Nat) : (s.configure n).bufs = some (freshBuffers s.chunkLen.toNat n (noutOf n)) := rfl
@[simp] theorem configure_source (s : State) (n : Nat) : (s.configure n).source = s.source := rfl
@[simp] theorem configure_sink (s : State) (n : Nat) : (s.configure n).sink = s.sink := rfl
@[simp] theorem configure_sinkReady (s : State) (n : Nat) : (s.configure n).sinkReady = s.sinkReady := rfl
@[simp] theorem configure_inputs (s : State) (n : Nat) : (s.configure n).inputs = s.inputs := rfl
@[simp] theorem configure_hostData (s : State) (n : Nat) : (s.configure n).hostData = s.hostData := rfl
@[simp] theorem configure_freeCount (s : State) (n : Nat) : (s.configure n).freeCount = s.freeCount := rfl

@[simp] theorem takeReset_st (s : State) (sent : Nat) (resumed : List FillAnswer) : (s.takeReset sent resumed).st = .idle := rfl
@[simp] theorem takeReset_stage (s : State) (sent : Nat) (resumed : List FillAnswer) : (s.takeReset sent resumed).stage = 0 := rfl
@[simp] theorem takeReset_err (s : State) (sent : Nat) (resumed : List FillAnswer) : (s.takeReset sent resumed).err = .noError := rfl
@[simp] theorem takeReset_eos (s : State) (sent : Nat) (resumed : List FillAnswer) : (s.takeReset sent resumed).eos = false := rfl
@[simp] theorem takeReset_cmdErr (s : State) (sent : Nat) (resumed : List FillAnswer) : (s.takeReset sent resumed).cmdErr = false := rfl
@[simp] theorem takeReset_planValid (s : State) (sent : Nat) (resumed : List FillAnswer) : (s.takeReset sent resumed).planValid = false := rfl
@[simp] theorem takeReset_chunkLen (s : State) (sent : Nat) (resumed : List FillAnswer) : (s.takeReset sent resumed).chunkLen = 0 := rfl
@[simp] theorem takeReset_nReg (s : State) (sent : Nat) (resumed : List FillAnswer) : (s.takeReset sent resumed).nReg = 0 := rfl
@[simp] theorem takeReset_cutoffReg (s : State) (sent : Nat) (resumed : List FillAnswer) : (s.takeReset sent resumed).cutoffReg = 0 := rfl
@[simp] theorem takeReset_noutReg (s : State) (sent : Nat) (resumed : List FillAnswer) : (s.takeReset sent resumed).noutReg = 0 := rfl
@[simp] theorem takeReset_prevRe (s : State) (sent : Nat) (resumed : List FillAnswer) : (s.takeReset sent resumed).prevRe = 0 := rfl
@[simp] theorem takeReset_prevIm (s : State) (sent : Nat) (resumed : List FillAnswer) : (s.takeReset sent resumed).prevIm = 0 := rfl
@[simp] theorem takeReset_bufs (s : State) (sent : Nat) (resumed : List FillAnswer) : (s.takeReset sent resumed).bufs = none := rfl
@[simp] theorem takeReset_source (s : State) (sent : Nat) (resumed : List FillAnswer) : (s.takeReset sent resumed).source = resumedSource s resumed := rfl
@[simp] theorem takeReset_sink (s : State) (sent : Nat) (resumed : List FillAnswer) : (s.takeReset sent resumed).sink = s.sink ++ interruptedBytes s sent := rfl
@[simp] theorem takeReset_sinkReady (s : State) (sent : Nat) (resumed : List FillAnswer) : (s.takeReset sent resumed).sinkReady = s.sinkReady := rfl
@[simp] theorem takeReset_inputs (s : State) (sent : Nat) (resumed : List FillAnswer) : (s.takeReset sent resumed).inputs = s.inputs := rfl
@[simp] theorem takeReset_hostData (s : State) (sent : Nat) (resumed : List FillAnswer) : (s.takeReset sent resumed).hostData = s.hostData := rfl
@[simp] theorem takeReset_freeCount (s : State) (sent : Nat) (resumed : List FillAnswer) : (s.takeReset sent resumed).freeCount = s.freeCount := rfl

end Sys2Proof.Machine
end

