-- ==== Sys2Proof/Laws/Ops.lean ====
section
/-! SUPPORT. What each shared operation can do, said once: the provers cite these instead of unfolding the operations. -/

namespace Sys2Proof.Machine

open Sys2Proof.Config

/-! ## Outcomes and guards -/

@[simp] theorem outcome_ok (s : State) : outcome (.ok s) = .next s := rfl

/-- An access's outcome is a next state exactly when the access gives that state. -/
theorem outcome_eq_next {r : Access State} {s : State} : outcome r = .next s ↔ r = .ok s := by
  rcases r with (f | q) | t <;> simp [outcome]

/-- `withBuffers` gives a value exactly when the buffers exist and the continuation gives it on them. -/
theorem withBuffers_eq_ok {α : Type} {s : State} {k : Buffers → Access α} {v : α} :
    withBuffers s k = .ok v ↔ ∃ b, s.bufs = some b ∧ k b = .ok v := by
  unfold withBuffers
  cases s.bufs <;> simp

/-- `withPlans` gives a value exactly when the plans exist and the continuation gives it. -/
theorem withPlans_eq_ok {α : Type} {s : State} {k : Access α} {v : α} :
    withPlans s k = .ok v ↔ s.planValid = true ∧ k = .ok v := by
  unfold withPlans
  cases s.planValid <;> simp

/-! ## Element reads -/

/-- `loadElem` gives `v` exactly when the element holds `v`. -/
theorem loadElem_eq_ok {α : Type} {name : BufferName} {buf : List (Option α)} {i : Nat} {v : α} :
    loadElem name buf i = .ok v ↔ buf[i]? = some (some v) := by
  unfold loadElem
  split <;> simp_all

/-- `loadElem` faults exactly on an element that holds no value. -/
theorem loadElem_eq_fault {α : Type} {name : BufferName} {buf : List (Option α)} {i : Nat} :
    loadElem name buf i = .error (.fault (.unwritten name i)) ↔ buf[i]? = some none := by
  unfold loadElem
  split <;> simp_all

/-- `loadElem` is refused exactly outside the buffer. -/
theorem loadElem_eq_refused {α : Type} {name : BufferName} {buf : List (Option α)} {i : Nat} :
    loadElem name buf i = .error (.refused (.indexOutside name i)) ↔ buf.length ≤ i := by
  unfold loadElem
  rw [← List.getElem?_eq_none_iff]
  split <;> simp_all

/-- Reading a fully written buffer. -/
theorem loadElem_map_some {α : Type} (name : BufferName) (xs : List α) (i : Nat) (h : i < xs.length) :
    loadElem name (xs.map some) i = .ok xs[i] := by
  rw [loadElem_eq_ok]
  simp [h]

/-- Reading a fully written buffer, the value given with any default. -/
theorem loadElem_map_some_getD {α : Type} (name : BufferName) (xs : List α) (d : α) (i : Nat) (h : i < xs.length) :
    loadElem name (xs.map some) i = .ok (xs.getD i d) := by
  rw [loadElem_map_some name xs i h]
  simp [List.getD, h]

/-! ## Loops -/

/-- A loop all of whose steps give a value gives the values in order. -/
theorem collect_eq_map {α : Type} {f : Nat → Access α} {g : Nat → α} :
    ∀ {is : List Nat}, (∀ i ∈ is, f i = .ok (g i)) → collect f is = .ok (is.map g)
  | [], _ => rfl
  | i :: rest, h => by
    have ih := collect_eq_map (f := f) (g := g) (is := rest) fun j hj => h j (List.mem_cons_of_mem _ hj)
    simp [collect, h i (List.mem_cons_self ..), ih]

/-- What a loop that gives values has done: one value for each index, each the value of its step. -/
theorem collect_eq_ok {α : Type} {f : Nat → Access α} :
    ∀ {is : List Nat} {vs : List α}, collect f is = .ok vs ↔ List.Forall₂ (fun i v => f i = .ok v) is vs
  | [], vs => by cases vs <;> simp [collect]
  | i :: rest, vs => by
    have ih := fun ws => collect_eq_ok (f := f) (is := rest) (vs := ws)
    unfold collect
    cases hf : f i with
    | error e => cases vs <;> simp [hf]
    | ok v =>
      cases hr : collect f rest with
      | error e =>
        cases vs with
        | nil => simp
        | cons w ws =>
          have : ¬ List.Forall₂ (fun i v => f i = .ok v) rest ws := by
            rw [← ih, hr]
            simp
          simp [this]
      | ok us =>
        cases vs with
        | nil => simp
        | cons w ws =>
          have hus : us = ws ↔ List.Forall₂ (fun i v => f i = .ok v) rest ws := by
            rw [← ih, hr]
            simp
          simp [hf, hus]

/-- A loop gives as many values as it has indices. -/
theorem collect_length {α : Type} {f : Nat → Access α} {is : List Nat} {vs : List α}
    (h : collect f is = .ok vs) : vs.length = is.length :=
  ((collect_eq_ok.mp h).length_eq).symm

/-- Reading the whole of a fully written buffer gives its contents. -/
theorem collect_loadElem {α : Type} (name : BufferName) (xs : List α) :
    collect (loadElem name (xs.map some)) (List.range xs.length) = .ok xs := by
  rw [collect_eq_ok, List.forall₂_iff_get]
  refine ⟨by simp, fun i h₁ h₂ => ?_⟩
  simpa using loadElem_map_some name xs i h₂

/-! ## Whole-buffer writes -/

/-- `storeAll` gives a buffer exactly when the values fit, and then the values stand first and the rest is unchanged. -/
theorem storeAll_eq_ok {α : Type} {name : BufferName} {buf buf' : List (Option α)} {vals : List α} :
    storeAll name buf vals = .ok buf' ↔
      vals.length ≤ buf.length ∧ buf' = vals.map some ++ buf.drop vals.length := by
  unfold storeAll
  split <;> simp_all [eq_comm]

/-- Writing every element of a buffer. -/
theorem storeAll_full {α : Type} (name : BufferName) (buf : List (Option α)) (vals : List α)
    (h : vals.length = buf.length) : storeAll name buf vals = .ok (vals.map some) := by
  rw [storeAll_eq_ok]
  simp [h]

/-- A write keeps the length of the buffer. -/
theorem storeAll_length {α : Type} {name : BufferName} {buf buf' : List (Option α)} {vals : List α}
    (h : storeAll name buf vals = .ok buf') : buf'.length = buf.length := by
  obtain ⟨hle, rfl⟩ := storeAll_eq_ok.mp h
  simp
  omega

/-- A buffer all of whose elements hold values is the image of those values. -/
theorem exists_values_of_written {α : Type} :
    ∀ {buf : List (Option α)}, buf.all Option.isSome = true → ∃ xs : List α, buf = xs.map some
  | [], _ => ⟨[], rfl⟩
  | none :: _, h => by simp at h
  | some x :: rest, h => by
    obtain ⟨xs, rfl⟩ := exists_values_of_written (buf := rest) (by simpa using h)
    exact ⟨x :: xs, rfl⟩

/-! ## Sizes of what the stages write -/

@[simp] theorem phases_length {V : Type} (o : NumOps V) :
    ∀ (prev : Int × Int) (samples : List (Int × Int)), (phases o prev samples).length = samples.length
  | _, [] => rfl
  | _, s :: rest => by simp [phases, phases_length o s rest]

@[simp] theorem rfftList_length {V : Type} (o : NumOps V) (N : Nat) (ph : List V) :
    (rfftList o N ph).length = specLen N := by simp [rfftList]

@[simp] theorem maskList_length {V : Type} (o : NumOps V) (N cutoff : Nat) (spec : List (V × V)) :
    (maskList o N cutoff spec).length = N := by simp [maskList]

@[simp] theorem irfftList_length {V : Type} (o : NumOps V) (N : Nat) (fspec : List (V × V)) :
    (irfftList o N fspec).length = N := by simp [irfftList]

@[simp] theorem decimList_length {V : Type} (o : NumOps V) (N nout : Nat) (fsig : List V) :
    (decimList o N nout fsig).length = nout := by simp [decimList]

/-- Two bytes make one sample. -/
theorem samplesOf_length : ∀ (n : Nat) (bytes : List Byte), bytes.length = 2 * n → (samplesOf bytes).length = n
  | 0, [], _ => rfl
  | n + 1, i :: q :: rest, h => by
    have := samplesOf_length n rest (by simp at h; omega)
    simp [samplesOf, this]
  | n + 1, [_], h => by simp at h; omega

/-- Sample `n` of a chunk comes from bytes `2n` and `2n + 1` (20_memory R60). -/
theorem samplesOf_getElem? : ∀ (n : Nat) (bytes : List Byte), 2 * n + 1 < bytes.length →
    (samplesOf bytes)[n]? = some (component (bytes.getD (2 * n) 0), component (bytes.getD (2 * n + 1) 0))
  | _, [], h => by simp at h
  | _, [_], h => by simp at h
  | 0, i :: q :: rest, _ => by simp [samplesOf, List.getD]
  | n + 1, i :: q :: rest, h => by
    have ih := samplesOf_getElem? n rest (by simp at h; omega)
    have e₁ : 2 * (n + 1) = 2 * n + 1 + 1 := by omega
    simp [samplesOf, ih, List.getD, e₁]

/-- Reading the samples of a fully written IQBUF. -/
theorem collect_loadSample (n : Nat) (bytes : List Byte) (h : bytes.length = 2 * n) :
    collect (loadSample (bytes.map some)) (List.range n) = .ok (samplesOf bytes) := by
  rw [collect_eq_ok, List.forall₂_iff_get]
  refine ⟨by simp [samplesOf_length n bytes h], fun k h₁ h₂ => ?_⟩
  have hk : k < n := by simpa using h₁
  have hs := samplesOf_getElem? k bytes (by omega)
  rw [List.getElem?_eq_getElem h₂] at hs
  simp only [Option.some.injEq] at hs
  simp only [List.get_eq_getElem, hs, List.getElem_range]
  unfold loadSample
  rw [loadElem_map_some_getD _ _ 0 _ (by omega), loadElem_map_some_getD _ _ 0 _ (by omega)]

@[simp] theorem serialise_length : ∀ out : List Sample, (serialise out).length = 2 * out.length
  | [] => rfl
  | u :: rest => by simp [serialise, sampleBytes, serialise_length rest]; omega

theorem serialise_append (xs ys : List Sample) : serialise (xs ++ ys) = serialise xs ++ serialise ys := by
  induction xs with
  | nil => rfl
  | cons u rest ih => simp [serialise, ih]

/-! ## Derived sizes -/

/-- A capacity admits the sizes up to N_MAX that can be planned for (40_init R122). -/
theorem admits_iff {cap : Capacity} {n : Nat} : cap.admits n = true ↔ n ≤ cap.nMax.val ∧ cap.planOk n = true := by
  simp [Capacity.admits]

theorem cutoff_le_specLen (N : Nat) : cutoffOf N ≤ specLen N := by
  unfold cutoffOf cutoffDiv specLen
  omega

/-- Every bin that MASK takes from SPEC lies in SPEC (42_lpf R165). -/
theorem binSource_bound (N k : Nat) :
    match binSource N (cutoffOf N) k with
    | .pass i => i < specLen N
    | .mirror i => i < specLen N
    | .zero => True := by
  have := cutoff_le_specLen N
  unfold binSource
  split_ifs <;> simp <;> omega

/-- Every index that DECIM reads lies in FSIG (43_decim R191). -/
theorem decimIndex_bound (N m : Nat) (hN : 0 < N) (hm : m < noutOf N) : decimIndex m < N := by
  unfold noutOf stride at hm
  unfold decimIndex stride
  omega

/-! ## The turn -/

/-- With an empty script the sequencer has the turn. -/
theorem nextTurn_nil {s : State} (h : s.inputs = []) : nextTurn s = sequencerTurn s := by
  simp [nextTurn, h]

/-- With an input at the head of the script, that input is taken. -/
theorem nextTurn_cons {s : State} {i : Input} {rest : List Input} (h : s.inputs = i :: rest) :
    nextTurn s = inputTurn { s with inputs := rest } i := by
  simp [nextTurn, h]

end Sys2Proof.Machine
end

