-- ==== Sys2Proof/Laws/PerInstr.lean ====
section
/-! SUPPORT. Families of statements made once per instruction. -/

namespace Sys2Proof.Laws.OpcodeOfIssuer

/-- An operation is encoded in its issuer's format, a command word for the host and a stage code for the sequencer, and the code in
it is the operation code of 30_encoding R95. -/
def Statement (i : Instr) : Prop :=
  match encode i with
  | .command w => i.wellFormedFor .host = true ∧ opField w = opcode i
  | .stage c => i.wellFormedFor .sequencer = true ∧ c = opcode i

theorem init (len : BitVec 28) : Statement (.init len) := by
  refine ⟨rfl, ?_⟩
  apply BitVec.eq_of_getLsbD_eq
  intro k hk
  simp only [opField, opcode, BitVec.getLsbD_extractLsb', BitVec.getLsbD_append, hk]
  simp

theorem run : Statement .run := ⟨rfl, by decide⟩
theorem fetch : Statement .fetch := ⟨rfl, rfl⟩
theorem demod : Statement .demod := ⟨rfl, rfl⟩
theorem rfft : Statement .rfft := ⟨rfl, rfl⟩
theorem mask : Statement .mask := ⟨rfl, rfl⟩
theorem irfft : Statement .irfft := ⟨rfl, rfl⟩
theorem decim : Statement .decim := ⟨rfl, rfl⟩
theorem emit : Statement .emit := ⟨rfl, rfl⟩
theorem release : Statement .release := ⟨rfl, rfl⟩

end Sys2Proof.Laws.OpcodeOfIssuer
end

