-- ==== Sys2Proof/Laws/Roots.lean ====
section
/-! SUPPORT. The roots of unity of the transforms (42_lpf, opening paragraph): how `W` adds, conjugates and repeats. -/

namespace Sys2Proof.Machine

@[simp] theorem unitRoot_re (t : ℝ) : (unitRoot t).re = Real.cos (2 * Real.pi * t) := rfl

@[simp] theorem unitRoot_im (t : ℝ) : (unitRoot t).im = Real.sin (2 * Real.pi * t) := rfl

theorem unitRoot_add (s t : ℝ) : unitRoot (s + t) = unitRoot s * unitRoot t := by
  apply Complex.ext
  · simp [mul_add, Real.cos_add]
  · simp [mul_add, Real.sin_add]
    ring

theorem unitRoot_conj (t : ℝ) : (starRingEnd ℂ) (unitRoot t) = unitRoot (-t) := by
  simp [unitRoot, Complex.ext_iff]

theorem unitRoot_natCast (n : ℕ) : unitRoot n = 1 := by
  apply Complex.ext
  · rw [unitRoot_re, mul_comm]
    exact Real.cos_nat_mul_two_pi n
  · rw [unitRoot_im, Complex.one_im, ← Real.sin_nat_mul_pi (2 * n)]
    push_cast
    congr 1
    ring

theorem unitRoot_intCast (z : ℤ) : unitRoot z = 1 := by
  rcases Int.eq_nat_or_neg z with ⟨n, rfl | rfl⟩
  · exact_mod_cast unitRoot_natCast n
  · have h := unitRoot_conj (n : ℝ)
    rw [unitRoot_natCast] at h
    push_cast
    rw [← h]
    simp

@[simp] theorem unitRoot_zero : unitRoot 0 = 1 := by simpa using unitRoot_natCast 0

theorem unitRoot_natMul (t : ℝ) (n : ℕ) : unitRoot (n * t) = unitRoot t ^ n := by
  induction n with
  | zero => simp
  | succ n ih =>
    push_cast
    rw [add_mul, unitRoot_add, ih, pow_succ, one_mul]

end Sys2Proof.Machine
end

