-- ==== Sys2Proof/Laws/Step.lean ====
section
/-! SUPPORT. What a step, and each operation, can do, said once: "if it answers a next state, then one of these holds". The provers
cite these instead of unfolding the step. -/

namespace Sys2Proof.Machine

open Sys2Proof.Config

/-- In the sequencer's turn the input script, if not empty, loses its head. -/
theorem nextTurn_of_engineNext {s : State} (h : engineNext s = true) : nextTurn s = sequencerTurn s.taken := by
  unfold engineNext at h
  split at h
  · rename_i h'
    rw [nextTurn_nil h']
    have : s.taken = s := by cases s; simp_all [State.taken]
    rw [this]
  · rename_i h'; simp [nextTurn_cons h', inputTurn, State.taken, h']
  · simp at h

/-- What FETCH can do: wait, store a chunk, or end the stream. -/
theorem fetch_next {s t : State} (h : exec .fetch s = .next t) :
    t = s ∨ (∃ a rest b bytes iq, s.source = a :: rest ∧ s.bufs = some b ∧ fillResult s.chunkLen.toNat a = some bytes ∧
        storeAll .iqbuf b.iq bytes = .ok iq ∧ t = { s with source := rest }.advance { b with iq := iq } .demod) ∨
    (∃ a rest b, s.source = a :: rest ∧ s.bufs = some b ∧ fillResult s.chunkLen.toNat a = none ∧
        t = { s with source := rest, eos := true, freeCount := s.freeCount + 1 }.advance
          { b with iq := staleBuffer s.freeCount b.iq } .release) := by
  have h : outcome (fetchChunk s) = .next t := h
  rw [outcome_eq_next] at h
  unfold fetchChunk at h
  split at h
  · simp at h; exact .inl h.symm
  · rename_i a rest hs
    right
    rw [withBuffers_eq_ok] at h
    obtain ⟨b, hb, h⟩ := h
    split at h
    · rename_i bytes hf
      split at h
      · simp at h
      · rename_i iq hiq
        simp at h
        exact .inl ⟨a, rest, b, bytes, iq, hs, hb, hf, hiq, h.symm⟩
    · rename_i hf
      simp at h
      exact .inr ⟨a, rest, b, hs, hb, hf, h.symm⟩

/-- What DEMOD can do. -/
theorem demod_next {s t : State} (h : exec .demod s = .next t) :
    ∃ b samples ph, s.bufs = some b ∧ collect (loadSample b.iq) (List.range s.nReg.toNat) = .ok samples ∧
      storeAll .ph b.ph (phases numOps s.prev samples) = .ok ph ∧
          t = (s.setPrev (lastSample s.prev samples)).advance { b with ph := ph } .rfft := by
  have h : outcome (demodWith numOps s) = .next t := h
  rw [outcome_eq_next] at h
  unfold demodWith at h
  rw [withBuffers_eq_ok] at h
  obtain ⟨b, hb, h⟩ := h
  split at h
  · simp at h
  · rename_i samples hs
    split at h
    · simp at h
    · rename_i ph hp
      simp at h
      exact ⟨b, samples, ph, hb, hs, hp, h.symm⟩

/-- What RFFT can do. -/
theorem rfft_next {s t : State} (h : exec .rfft s = .next t) :
    ∃ b xs ys, s.planValid = true ∧ s.bufs = some b ∧ collect (loadElem .ph b.ph) (List.range s.nReg.toNat) = .ok xs ∧
      storeAll .spec b.spec (rfftList numOps s.nReg.toNat xs) = .ok ys ∧ t = s.advance { b with spec := ys } .mask := by
  have h : outcome (rfftWith numOps s) = .next t := h
  rw [outcome_eq_next] at h
  unfold rfftWith at h
  rw [withPlans_eq_ok] at h
  obtain ⟨hpv, h⟩ := h
  rw [withBuffers_eq_ok] at h
  obtain ⟨b, hb, h⟩ := h
  split at h
  · simp at h
  · rename_i xs hs
    split at h
    · simp at h
    · rename_i ys hp
      simp at h
      exact ⟨b, xs, ys, hpv, hb, hs, hp, h.symm⟩

/-- What MASK can do. -/
theorem mask_next {s t : State} (h : exec .mask s = .next t) :
    ∃ b xs ys, s.bufs = some b ∧ collect (loadBin numOps b.spec s.nReg.toNat s.cutoffReg.toNat) (List.range s.nReg.toNat) = .ok xs ∧
      storeAll .fspec b.fspec xs = .ok ys ∧ t = s.advance { b with fspec := ys } .irfft := by
  have h : outcome (maskWith numOps s) = .next t := h
  rw [outcome_eq_next] at h
  unfold maskWith at h
  rw [withBuffers_eq_ok] at h
  obtain ⟨b, hb, h⟩ := h
  split at h
  · simp at h
  · rename_i xs hs
    split at h
    · simp at h
    · rename_i ys hp
      simp at h
      exact ⟨b, xs, ys, hb, hs, hp, h.symm⟩

/-- What IRFFT can do. -/
theorem irfft_next {s t : State} (h : exec .irfft s = .next t) :
    ∃ b xs ys, s.planValid = true ∧ s.bufs = some b ∧ collect (loadElem .fspec b.fspec) (List.range s.nReg.toNat) = .ok xs ∧
      storeAll .fsig b.fsig (irfftList numOps s.nReg.toNat xs) = .ok ys ∧ t = s.advance { b with fsig := ys } .decim := by
  have h : outcome (irfftWith numOps s) = .next t := h
  rw [outcome_eq_next] at h
  unfold irfftWith at h
  rw [withPlans_eq_ok] at h
  obtain ⟨hpv, h⟩ := h
  rw [withBuffers_eq_ok] at h
  obtain ⟨b, hb, h⟩ := h
  split at h
  · simp at h
  · rename_i xs hs
    split at h
    · simp at h
    · rename_i ys hp
      simp at h
      exact ⟨b, xs, ys, hpv, hb, hs, hp, h.symm⟩

/-- What DECIM can do. -/
theorem decim_next {s t : State} (h : exec .decim s = .next t) :
    ∃ b xs ys, s.bufs = some b ∧ collect (loadOut numOps b.fsig s.nReg.toNat) (List.range s.noutReg.toNat) = .ok xs ∧
      storeAll .obuf b.obuf xs = .ok ys ∧ t = s.advance { b with obuf := ys } .emit := by
  have h : outcome (decimWith numOps s) = .next t := h
  rw [outcome_eq_next] at h
  unfold decimWith at h
  rw [withBuffers_eq_ok] at h
  obtain ⟨b, hb, h⟩ := h
  split at h
  · simp at h
  · rename_i xs hs
    split at h
    · simp at h
    · rename_i ys hp
      simp at h
      exact ⟨b, xs, ys, hb, hs, hp, h.symm⟩

/-- What EMIT can do: wait, or append the chunk. -/
theorem emit_next {s t : State} (h : exec .emit s = .next t) :
    t = s ∨ ∃ b out, s.bufs = some b ∧ collect (loadElem .obuf b.obuf) (List.range s.noutReg.toNat) = .ok out ∧
        t = (s.sinkAppend (serialise out)).advance b .fetch := by
  have h : outcome (emitChunk s) = .next t := h
  rw [outcome_eq_next] at h
  unfold emitChunk at h
  split at h
  · right
    rw [withBuffers_eq_ok] at h
    obtain ⟨b, hb, h⟩ := h
    split at h
    · simp at h
    · rename_i xs hs
      simp at h
      exact ⟨b, xs, hb, hs, h.symm⟩
  · simp at h; exact .inl h.symm

/-- A stage code that decodes is the code of a sequencer's operation. -/
theorem decodeStage_ok {c : BitVec 4} {i : Instr} (h : decodeStage c = .ok i) : c = opcode i ∧ i.issuer = .sequencer := by
  simp only [decodeStage] at h
  rcases c with ⟨⟨c, hlt⟩⟩
  interval_cases c <;> simp at h <;> subst h <;> exact ⟨rfl, rfl⟩

/-- A command word that decodes is INIT or RUN. -/
theorem decodeCommand_ok {w : Word} {i : Instr} (h : decodeCommand w = .ok i) : (∃ len, i = .init len) ∨ i = .run := by
  unfold decodeCommand at h
  split at h <;> try simp at h
  · exact .inl ⟨_, h.symm⟩
  · split at h <;> simp at h
    exact .inr h.symm

/-- What INIT can do: be refused, raise an error, or configure the Engine. -/
theorem init_cases (cap : Capacity) (len : BitVec 28) (s : State) :
   (s.st ≠ .idle ∧ initWith cap len s = s.refuseAccess) ∨ (s.st = .idle ∧
     ((∃ e, e ≠ .noError ∧ initWith cap len s = ({ s with chunkLen := len} : State).raiseError e) ∨
      (len.toNat ≠ 0 ∧ len.toNat % 2 = 0 ∧ cap.admits (sizeN len.toNat) = true ∧
          initWith cap len s = ({ s with chunkLen := len} : State).configure (sizeN len.toNat)))) := by
  unfold initWith
  split
  · right
    refine ⟨‹_›, ?_⟩
    split
    · exact .inl ⟨.cfg, by simp, rfl⟩
    · split
      · exact .inr ⟨by omega, by omega, ‹_›, rfl⟩
      · exact .inl ⟨.res, by simp, rfl⟩
  · exact .inl ⟨‹_›, rfl⟩

/-- Everything that a step can do. -/
theorem step_cases {s t : State} (h : step s = .next t) :
    (engineNext s = true ∧ ((s.st ≠ .running ∧ t = s.taken) ∨ (s.st = .running ∧ ∃ i, s.stage = opcode i ∧
        i.issuer = .sequencer ∧ exec i s.taken = .next t))) ∨
    (∃ reg w rest, s.inputs = .ctlWrite reg w :: rest ∧ (t = ({ s with inputs := rest } : State).refuseAccess ∨
        (∃ len, t = initWith capacity len { s with inputs := rest }) ∨ t = startRun { s with inputs := rest })) ∨
    (∃ reg rest, s.inputs = .ctlRead reg :: rest ∧ t = readTurn { s with inputs := rest } reg) ∨
    (∃ a rest, s.inputs = .answer a :: rest ∧ t = { s with inputs := rest, source := s.source ++ [a] }) ∨
    (∃ a rest, s.inputs = .sink a :: rest ∧ t = { s with inputs := rest, sinkReady := a }) ∨
    (∃ n r rest, s.inputs = .reset n r :: rest ∧ t = ({ s with inputs := rest } : State).takeReset n r) := by
  have heng : engineNext s = true → ((s.st ≠ .running ∧ t = s.taken) ∨ (s.st = .running ∧ ∃ i, s.stage = opcode i ∧
      i.issuer = .sequencer ∧ exec i s.taken = .next t)) := by
    intro he
    rw [step, nextTurn_of_engineNext he] at h
    unfold sequencerTurn at h
    by_cases hr : s.taken.st = .running
    · right
      rw [if_pos hr] at h
      refine ⟨hr, ?_⟩
      cases hd : decodeStage s.taken.stage with
      | error e => rw [hd] at h; simp at h
      | ok i =>
        rw [hd] at h
        exact ⟨i, (decodeStage_ok hd).1, (decodeStage_ok hd).2, h⟩
    · left
      rw [if_neg hr] at h
      simp at h
      exact ⟨hr, h.symm⟩
  cases hi : s.inputs with
  | nil => exact .inl ⟨by simp [engineNext, hi], heng (by simp [engineNext, hi])⟩
  | cons i rest =>
    cases i with
    | engine => exact .inl ⟨by simp [engineNext, hi], heng (by simp [engineNext, hi])⟩
    | ctlWrite reg w =>
      right; left
      refine ⟨reg, w, rest, rfl, ?_⟩
      rw [step, nextTurn_cons hi] at h
      simp only [inputTurn, writeTurn] at h
      split at h
      · rename_i i s' hh
        split at hh
        · split at hh
          · rename_i j hd
            simp at hh
            obtain ⟨rfl, rfl⟩ := hh
            rcases decodeCommand_ok hd with ⟨len, rfl⟩ | rfl
            · simp [exec, execInit] at h; exact .inr (.inl ⟨len, h.symm⟩)
            · simp [exec, execRun] at h; exact .inr (.inr h.symm)
          · simp at hh
        · simp at hh
      · rename_i s' hh
        simp at h; subst h
        split at hh
        · split at hh
          · simp at hh
          · simp at hh; exact .inl hh.symm
        · simp at hh; exact .inl hh.symm
      · simp at h
    | ctlRead reg =>
      rw [step, nextTurn_cons hi] at h
      simp [inputTurn] at h
      exact .inr (.inr (.inl ⟨reg, rest, rfl, h.symm⟩))
    | answer a =>
      rw [step, nextTurn_cons hi] at h
      simp [inputTurn] at h
      exact .inr (.inr (.inr (.inl ⟨a, rest, rfl, h.symm⟩)))
    | sink a =>
      rw [step, nextTurn_cons hi] at h
      simp [inputTurn] at h
      exact .inr (.inr (.inr (.inr (.inl ⟨a, rest, rfl, h.symm⟩))))
    | reset n r =>
      rw [step, nextTurn_cons hi] at h
      simp [inputTurn] at h
      exact .inr (.inr (.inr (.inr (.inr ⟨n, r, rest, rfl, h.symm⟩))))

/-! ## Runs of several steps -/

/-- A run of `k + 1` steps is a step and a run of `k`. -/
theorem run_succ {s t : State} {o : Host.Outcome State Fault Refusal} {k : Nat} (h : step s = .next t)
    (hk : Sys2Proof.core.run k t = o) : Sys2Proof.core.run (k + 1) s = o := by
  rw [← hk]
  simp only [Host.Core.run]
  have : Sys2Proof.core.step s = .next t := h
  rw [this]

/-- Runs one after the other. -/
theorem run_add {o : Host.Outcome State Fault Refusal} :
    ∀ {m n : Nat} {s t : State}, Sys2Proof.core.run m s = .next t → Sys2Proof.core.run n t = o →
      Sys2Proof.core.run (m + n) s = o
  | 0, n, s, t, h, hn => by
    simp only [Host.Core.run] at h
    cases h
    rw [Nat.zero_add]
    exact hn
  | m + 1, n, s, t, h, hn => by
    have e : m + 1 + n = (m + n) + 1 := by omega
    simp only [Host.Core.run] at h
    cases hs : Sys2Proof.core.step s with
    | next s' =>
      rw [hs] at h
      rw [e]
      exact run_succ hs (run_add h hn)
    | fault => rw [hs] at h; simp at h
    | refused => rw [hs] at h; simp at h

end Sys2Proof.Machine
end

