-- ==== Sys2Proof/Tests/Slice0.lean ====
section
/-! SUPPORT. The model's own tests. Expected values are those of spec/95_test_vectors.md, named by their ids, or worked by hand from
the rule named. Then, for each obligation with hypotheses, a witness that meets them. -/

namespace Sys2Proof.Tests

open Sys2Proof Sys2Proof.Machine Sys2Proof.Config

/-! ## Small states -/

/-- Buffers for `L = 4` (`N = 2`, `CUTOFF = 0`, `NSPEC = 2`, `NOUT = 1`), every element written. -/
def smallBuffers : Buffers where
  iq := [some 227, some 127, some 127, some 227]
  ph := [some ⟨1⟩, some ⟨2⟩]
  spec := [some (⟨3⟩, ⟨4⟩), some (⟨5⟩, ⟨6⟩)]
  fspec := [some (⟨7⟩, ⟨8⟩), some (⟨9⟩, ⟨10⟩)]
  fsig := [some ⟨11⟩, some ⟨12⟩]
  obuf := [some 1121]

/-- RUNNING with `L = 4`, every buffer written, at the stage of `i`. -/
def small (i : Instr) : State :=
  { State.reset with
    st := .running
    stage := opcode i
    planValid := true
    chunkLen := 4
    nReg := 2
    cutoffReg := 0
    noutReg := 1
    eos := decide (i = .release)
    bufs := some smallBuffers }

/-- READY with `L = 4`: fresh buffers, plans. -/
def ready : State :=
  { small .fetch with
    st := .ready
    stage := 0
    bufs := some (freshBuffers 4 2 1) }

/-- FAULT with E_CFG after INIT 7. -/
def faulted : State := { State.reset with st := .fault, err := .cfg, chunkLen := 7 }

/-- DONE with `L = 4`. -/
def ended : State :=
  { small .release with
    st := .done
    stage := 0
    planValid := false
    bufs := none }

/-- RUNNING with `N = 28`, `CUTOFF = 2`, at MASK, only `SPEC[1]` written: the one bin it reads. -/
def mask28 : State :=
  { small .mask with
    chunkLen := 56
    nReg := 28
    cutoffReg := 2
    noutReg := 6
    bufs := some { freshBuffers 56 28 6 with spec := none :: some (⟨5⟩, ⟨6⟩) :: List.replicate 13 none } }

/-- A state with one input next. -/
def before (s : State) (i : Input) : State := { s with inputs := [i] }

/-- The capacity of the vectors: `N_MAX = 4096`, every size plannable. -/
def cap4096 : Capacity := { nMax := ⟨4096, by decide⟩, planOk := fun _ => true }

/-- The STATUS word of the next state, if the outcome is one. -/
def statusOf : Host.Outcome State Fault Refusal → Option Word
  | .next s => some (statusWord s)
  | .fault _ => none
  | .refused _ => none

/-- The outcome is this next state. -/
def nextIs (o : Host.Outcome State Fault Refusal) (t : State) : Bool :=
  match o with
  | .next s => decide (s = t)
  | .fault _ => false
  | .refused _ => false

/-- Primitives for tests: each result shows the operands it was made from. -/
def toy : NumOps Code where
  zero := ⟨0⟩
  neg v := ⟨v.bits + 1000⟩
  arg2 im re := ⟨(im + 100000).toNat * 1000000 + (re + 100000).toNat⟩
  rfft _ _ k := (⟨k.val⟩, ⟨k.val⟩)
  irfft _ F n := (F n).1
  scale _ v := v.bits

/-! ## Who may issue what (60_exceptions R276, 30_encoding R103) -/

theorem test_host_may_not_issue_stage_operations :
    [Instr.fetch, .demod, .rfft, .mask, .irfft, .decim, .emit, .release].all
      (fun i => !i.wellFormedFor .host && i.wellFormedFor .sequencer) = true := by decide

theorem test_sequencer_may_not_issue_commands :
    [Instr.init 10, .run].all (fun i => !i.wellFormedFor .sequencer && i.wellFormedFor .host) = true := by decide

/-! ## Encodings, the words written out from 30_encoding R94 to R98 -/

theorem test_decode_init :
    decodeCommand 0b00010000000000000000100000000000#32 = .ok (.init 2048) ∧
      decodeCommand 0b00010000000000000000000000000111#32 = .ok (.init 7) ∧
      decodeCommand 0x1FFFFFFF#32 = .ok (.init 268435455) := by decide

theorem test_decode_run : decodeCommand 0b00100000000000000000000000000000#32 = .ok .run := by decide

theorem test_decode_stage :
    decodeStage 0b0011#4 = .ok .fetch ∧ decodeStage 0b0100#4 = .ok .demod ∧ decodeStage 0b0101#4 = .ok .rfft ∧
      decodeStage 0b0110#4 = .ok .mask ∧ decodeStage 0b0111#4 = .ok .irfft ∧ decodeStage 0b1000#4 = .ok .decim ∧
      decodeStage 0b1001#4 = .ok .emit ∧ decodeStage 0b1010#4 = .ok .release := by decide

/-- 30_encoding R102: the words refused to the host. -/
theorem test_decode_refuses :
    decodeCommand 0x00000000#32 = .error (.reservedCode 0) ∧ decodeCommand 0xB0000000#32 = .error (.reservedCode 11) ∧
      decodeCommand 0xF0000000#32 = .error (.reservedCode 15) ∧ decodeCommand 0x30000000#32 = .error (.stageFromHost 3) ∧
      decodeCommand 0xA0000000#32 = .error (.stageFromHost 10) ∧ decodeCommand 0x20000001#32 = .error (.runOperand 1) ∧
      decodeStage 0#4 = .error (.reservedCode 0) ∧ decodeStage 2#4 = .error (.commandInStage 2) ∧
      decodeStage 11#4 = .error (.reservedCode 11) := by decide

theorem test_encode :
    encode (.init 10) = .command 0x1000000A#32 ∧ encode .run = .command 0x20000000#32 ∧
      encode .release = .stage 0b1010#4 := by decide

theorem test_decodeTableWord :
    decodeTableWord 32 0x1000000A = some (.init 10) ∧ decodeTableWord 8 0x3 = some .fetch ∧
      decodeTableWord 4 0xA = some .release ∧ decodeTableWord 8 0xB = none ∧ decodeTableWord 8 0x13 = none := by decide

/-! ## INIT and RUN -/

/-- V-I1 to V-I8: STATUS and the derived sizes. -/
theorem test_init_sizes :
    [2048, 10, 2, 56, 8192].map (fun l => statusWord (initWith cap4096 l State.reset)) = [0x81, 0x81, 0x81, 0x81, 0x81] ∧
      [2048, 10, 2, 56, 8192].map (fun l => (initWith cap4096 l State.reset).nReg) = [1024, 5, 1, 28, 4096] ∧
      [2048, 10, 2, 56, 8192].map (fun l => (initWith cap4096 l State.reset).cutoffReg) = [73, 0, 0, 2, 292] ∧
      [2048, 10, 2, 56, 8192].map (fun l => (initWith cap4096 l State.reset).noutReg) = [205, 1, 1, 6, 820] := by
  refine ⟨?_, ?_, ?_, ?_⟩ <;> rfl

/-- V-I5, V-I6, V-I7, V-I9, V-I10, V-I11, V-I12. -/
theorem test_init_errors :
    [0, 7, 16384, 16385, 268435455].map (fun l => statusWord (initWith cap4096 l State.reset)) =
        [0x104, 0x104, 0x204, 0x104, 0x104] ∧
      statusWord (initWith { cap4096 with planOk := fun n => n != 28 } 56 State.reset) = 0x204 ∧
      (initWith cap4096 16384 State.reset).chunkLen = 16384 ∧
      initWith cap4096 56 ready = { ready with cmdErr := true } := by
  refine ⟨?_, ?_, ?_, ?_⟩ <;> rfl

/-- V-R1, V-R2, V-R3, V-R4. -/
theorem test_run :
    statusOf (step (before ready (.ctlWrite 0 0x20000000))) = some 0x9A ∧
      statusOf (step (before State.reset (.ctlWrite 0 0x20000000))) = some 0x2000 ∧
      statusOf (step (before (small .rfft) (.ctlWrite 0 0x20000000))) = some 0x20AA ∧
      statusOf (step (before ended (.ctlWrite 0 0x20000000))) = some 0x3003 := by decide

/-- V-R5, V-R6, V-R7, V-Z5: refused writes. -/
theorem test_refused_writes :
    [0x20000001, 0x30000000, 0x00000000, 0xB0000000, 0xF0000000].map
        (fun w => statusOf (step (before ready (.ctlWrite 0 w)))) = List.replicate 5 (some 0x2081) ∧
      statusOf (step (before ready (.ctlWrite 2 0x10000038))) = some 0x2081 := by decide

/-- V-Z4, V-Z6: reads of CMD, STATUS and register 6. -/
theorem test_reads :
    nextIs (step (before ready (.ctlRead 0))) { ready with hostData := 0 } = true ∧
      nextIs (step (before ready (.ctlRead 1))) { ready with hostData := 0x81 } = true ∧
      nextIs (step (before ready (.ctlRead 6))) { ready with hostData := 0, cmdErr := true } = true := by decide

/-- V-Z7. -/
theorem test_reset :
    nextIs (step (before faulted (.reset 0 []))) State.reset = true ∧
      nextIs (step (before ended (.reset 0 []))) State.reset = true := by decide

/-! ## FETCH and RELEASE -/

/-- V-F1. -/
theorem test_fetch_ok :
    nextIs (step { small .fetch with source := [.obtained [227, 127, 127, 227]], bufs := some (freshBuffers 4 2 1) })
      { small .demod with
        bufs := some { freshBuffers 4 2 1 with iq := [some 227, some 127, some 127, some 227] } } = true := by decide

/-- V-F2, V-F3: a failure, a short fill, and no answer. -/
theorem test_fetch_fail :
    statusOf (step { small .fetch with source := [.deviceError] }) = some 0x10D2 ∧
      statusOf (step { small .fetch with source := [.obtained [227, 127]] }) = some 0x10D2 ∧
      nextIs (step (small .fetch)) (small .fetch) = true := by decide

/-- V-F4. -/
theorem test_release : nextIs (step (small .release)) ended = true ∧ statusWord ended = 0x1003 := by decide

/-! ## DEMOD -/

/-- V-D2, V-D8, V-D10, V-D12, V-D14, V-D16: real and imaginary part of the product. -/
theorem test_product :
    (productRe 0 100 100 0, productIm 0 100 100 0) = (0, 10000) ∧
      (productRe 128 128 128 128, productIm 128 128 128 128) = (32768, 0) ∧
      (productRe (-127) 128 128 (-127), productIm (-127) 128 128 (-127)) = (-32512, 255) ∧
      (productRe 4 3 3 4, productIm 4 3 3 4) = (24, -7) ∧
      (productRe (component 26) (component 128) 100 0, productIm (component 26) (component 128) 100 0) = (-10100, 100) ∧
      component 0 = -127 := by decide

/-- V-D17: the angle's arguments, and PREV carried; then the same bytes again. -/
theorem test_demod :
    nextIs (outcome (demodWith toy (small .demod))) { small .rfft with
        prevRe := 0
        prevIm := 100
        bufs := some { smallBuffers with ph := [some (toy.arg2 0 0), some (toy.arg2 10000 0)] } } = true ∧
      phases toy (0, 100) (samplesOf [227, 127, 127, 227]) = [toy.arg2 (-10000) 0, toy.arg2 10000 0] := by decide

/-- V-D3: 180 degrees give `+pi`, never `-pi`; V-D4: `-90` degrees. -/
theorem test_angle : arg2Exact 0 (-10000) = Real.pi ∧ arg2Exact (-10000) 0 = -(Real.pi / 2) := by
  constructor <;> norm_num [arg2Exact]

/-! ## RFFT, MASK, IRFFT -/

/-- V-L2: the sign of the exponent. -/
theorem test_rfft_sign : dftExact 4 (fun n => if n = 1 then 1 else 0) 1 = -Complex.I := by
  have h : 2 * Real.pi * 4⁻¹ = Real.pi / 2 := by ring
  simp only [dftExact, Fin.sum_univ_four]
  apply Complex.ext <;> simp [h]

/-- RFFT and IRFFT, their plans there, go on to MASK and DECIM. -/
theorem test_transform_steps : statusOf (step (small .rfft)) = some 0xB2 ∧ statusOf (step (small .irfft)) = some 0xC2 := by
  constructor <;> rfl

/-- V-M1, V-M2, V-M3, V-M4: the bins that MASK takes from SPEC. -/
theorem test_mask_bins :
    ((List.range 5).map (binSource 5 0)).all (· == .zero) = true ∧
      ((List.range 14).map (binSource 14 1)).all (· == .zero) = true ∧
      ((List.range 27).map (binSource 27 1)).all (· == .zero) = true ∧
      (List.range 28).map (binSource 28 2) =
        .zero :: .pass 1 :: List.replicate 25 .zero ++ [.mirror 1] := by decide

/-- V-M7 at its edges, `N = 1024`, `CUTOFF = 73`; V-M4's mirror is a conjugate. -/
theorem test_mask_edges :
    [0, 1, 72, 73, 512, 951, 952, 1023].map (binSource 1024 73) =
        [.zero, .pass 1, .pass 72, .zero, .zero, .zero, .mirror 72, .mirror 1] ∧
      maskBin toy 28 2 (fun k => (⟨k⟩, ⟨k⟩)) 27 = (⟨1⟩, ⟨1001⟩) := by decide

/-- V-X1 at each index: no factor `1/N`. -/
theorem test_irfft_unnormalised (n : Nat) : idftExact 4 (fun k => if k = 0 then 4 else 0) n = 4 := by
  simp [idftExact, unitRoot]

/-! ## DECIM and EMIT -/

/-- V-C9's indices: 0, 5 and 10 of `N = 11`. -/
theorem test_decim_indices : decimList toy 11 (noutOf 11) ((List.range 11).map Code.mk) = [0, 5, 10] := by decide

/-- V-C4 to V-C6 and the list of `wrap16` alone; V-C7: truncation toward zero of a real quotient. -/
theorem test_decim_values :
    [0, 32767, 32768, 40000, 65535, 65536, 98304, -1, -32768, -32769, -65536, 4530000].map wrap16 =
        [0, 32767, -32768, -25536, -1, 0, -32768, -1, -32768, 32767, 0, 8016] ∧
      scaleExact 6 (-1) = -1666 ∧ scaleExact 6 3 = 5000 := by
  refine ⟨by decide, ?_, ?_⟩ <;> norm_num [scaleExact, truncReal, ampScale, Int.floor_eq_iff]

/-- V-E1 to V-E4. -/
theorem test_emit_bytes :
    serialise [0] = [0x00, 0x00] ∧ serialise [1121, -5525] = [0x61, 0x04, 0x6B, 0xEA] ∧
      serialise [1, -1, 256, -256] = [0x01, 0x00, 0xFF, 0xFF, 0x00, 0x01, 0x00, 0xFF] ∧
      serialise [32767, -32768] = [0xFF, 0x7F, 0x00, 0x80] := by decide

/-- EMIT after other bytes, and while the sink does not accept. -/
theorem test_emit_step :
    nextIs (step { small .emit with sink := [9] }) { small .fetch with sink := [9, 0x61, 0x04] } = true ∧
      nextIs (step { small .emit with sinkReady := false }) { small .emit with sinkReady := false } = true := by decide

/-! ## The host's entry -/

/-- Every stage code placed by `withFetchWord` after reset is run by the next step, and so is RUN's word. -/
theorem test_withFetchWord :
    [3, 4, 5, 6, 7, 8, 9, 10].map (fun c => statusOf (step (State.reset.withFetchWord 8 c))) =
        [some 0x9A, some 0xAA, some 0xB2, some 0xBA, some 0xC2, some 0xCA, some 0x9A, some 0x03] ∧
      statusOf (step (State.reset.withFetchWord 32 0x20000000)) = some 0x2000 := by
  constructor <;> rfl

/-! ## Witnesses: for each obligation with hypotheses, states and operands that meet them -/

theorem witness_StepRunsHostCommand :
    (before State.reset (.ctlWrite 0 0x10000004)).inputs = .ctlWrite 0 0x10000004 :: [] ∧
      decodeCommand 0x10000004#32 = .ok (.init 4) := by decide

theorem witness_StepRunsStageOperation :
    [Instr.fetch, .demod, .rfft, .mask, .irfft, .decim, .emit, .release].all (fun i =>
      engineNext (small i) && decide ((small i).st = .running) && decide (decodeStage (small i).stage = .ok i)) = true := by
  decide

theorem witness_SequencerRestsOutsideRunning :
    [State.reset, ready, ended, faulted].all (fun s => engineNext s && decide (s.st ≠ .running)) = true := by decide

/-- Each clause at both ends of its range. -/
theorem witness_RefusedHostWrites :
    ((opField 0x00000000#32).toNat = 0 ∧ 11 ≤ (opField 0xB0000000#32).toNat ∧ 11 ≤ (opField 0xFFFFFFFF#32).toNat) ∧
      (opField 0x30000000#32).toNat = 3 ∧ (opField 0xA0000000#32).toNat = 10 ∧
      ((opField 0x20000001#32).toNat = 2 ∧ argField 0x20000001#32 ≠ 0) ∧
      ((opField 0x2FFFFFFF#32).toNat = 2 ∧ argField 0x2FFFFFFF#32 ≠ 0) ∧
      (before ready (.ctlWrite 1 0x20000000)).inputs = .ctlWrite 1 0x20000000 :: [] ∧ 1 ≠ 0 :=
  ⟨by decide, rfl, rfl, by decide, by decide, rfl, by decide⟩

theorem witness_HostReadReturnsRegister :
    ∀ reg ∈ [0, 1, 2, 3, 4, 5, 6, 1000], (before ready (.ctlRead reg)).inputs = .ctlRead reg :: [] :=
  fun _ _ => rfl

/-- The clause about EMIT, then those about other stages. -/
theorem witness_ResetFromAnyState :
    ((before (small .emit) (.reset 1 [])).inputs = .reset 1 [] :: [] ∧ (small .emit).st = .running ∧
        (small .emit).stage = opcode .emit ∧ (small .emit).bufs = some smallBuffers ∧
        smallBuffers.obuf = [1121].map some ∧ [1121#16].length = (small .emit).noutReg.toNat) ∧
      ¬((small .fetch).st = .running ∧ (small .fetch).stage = opcode .emit) ∧
      ¬((small .demod).st = .running ∧ (small .demod).stage = opcode .fetch) := by decide

theorem witness_CommandsRefusedInOtherStates : ready.st ≠ .idle ∧ State.reset.st ≠ .ready := by decide

theorem witness_InitRaisesConfigError :
    State.reset.st = .idle ∧ (0#28).toNat = 0 ∧ (1#28).toNat % 2 = 1 ∧ (268435455#28).toNat % 2 = 1 :=
  ⟨rfl, rfl, rfl, rfl⟩

/-- `L` even, at N_MAX, one pair above it, and with a size that cannot be planned. -/
theorem witness_InitByCapacity :
    State.reset.st = .idle ∧ ((8192#28).toNat ≠ 0 ∧ (8192#28).toNat % 2 = 0) ∧ ((8194#28).toNat ≠ 0 ∧ (8194#28).toNat % 2 = 0) ∧
      cap4096.admits ((8192#28).toNat / 2) = true ∧ cap4096.admits ((8194#28).toNat / 2) = false :=
  ⟨rfl, ⟨by decide, rfl⟩, ⟨by decide, rfl⟩, rfl, rfl⟩

theorem witness_InitDerivedSizes :
    State.reset.st = .idle ∧ (initWith cap4096 2 State.reset).st = .ready ∧ (initWith cap4096 8192 State.reset).st = .ready := by
  refine ⟨rfl, rfl, rfl⟩

theorem witness_RunStartsTheLoop : ready.st = .ready := rfl

theorem witness_FetchStoresChunk :
    let s := { small .fetch with source := [.obtained [1, 2, 3, 4]] }
    s.bufs = some smallBuffers ∧ smallBuffers.iq.length = s.chunkLen.toNat ∧ s.source = .obtained [1, 2, 3, 4] :: [] ∧
      [1#8, 2, 3, 4].length = s.chunkLen.toNat := by decide

/-- A device failure, a short fill and a long one. -/
theorem witness_FetchEndsOnFailure :
    ∀ a ∈ [FillAnswer.deviceError, .obtained [1, 2, 3], .obtained [1, 2, 3, 4, 5]],
      ∃ s : State, s.bufs = some smallBuffers ∧ s.source = a :: [] ∧
        ∀ bytes, a = .obtained bytes → bytes.length ≠ s.chunkLen.toNat := by
  intro a ha
  refine ⟨{ small .fetch with source := [a] }, rfl, rfl, fun bytes h => ?_⟩
  subst h
  simp at ha
  rcases ha with rfl | rfl <;> decide

theorem witness_DemodWritesPhases :
    (small .demod).bufs = some smallBuffers ∧ smallBuffers.iq = [227, 127, 127, 227].map some ∧
      [227#8, 127, 127, 227].length = 2 * (small .demod).nReg.toNat ∧
      smallBuffers.ph.length = (small .demod).nReg.toNat := by decide

theorem witness_DemodCarriesLastSample :
    (small .demod).bufs = some smallBuffers ∧ smallBuffers.iq = [227, 127, 127, 227].map some ∧
      [227#8, 127, 127, 227].length = 2 * (small .demod).nReg.toNat ∧
      smallBuffers.ph.length = (small .demod).nReg.toNat ∧ 1 ≤ (small .demod).nReg.toNat := by decide

theorem witness_PhaseValueByIndex : [227#8, 127, 127, 227].length = 2 * 2 ∧ 0 < 2 ∧ 1 < 2 := by decide

theorem witness_PhasesContinuousAcrossChunks : [227#8, 127].length % 2 = 0 := by decide

theorem witness_DegeneratePhaseIsZero :
    (((0 : Int) = 0 ∧ (0 : Int) = 0) ∨ ((3 : Int) = 0 ∧ (4 : Int) = 0)) ∧ Nonempty (Numerics ℝ) :=
  ⟨by decide, ⟨exactNumerics⟩⟩

theorem witness_ProductNeverOverflows :
    ∀ x ∈ [(-127 : Int), 128], -127 ≤ x ∧ x ≤ 128 := by decide

theorem witness_AngleReflectionLaws :
    ¬((1 : Int) = 0 ∧ (-1 : Int) < 0) ∧ ¬((0 : Int) = 0 ∧ (0 : Int) < 0) ∧ (-1 : Int) < 0 ∧ (0 : Int) < 1 := by decide

/-- `N = 1`, `m = 0`: under exact arithmetic no error accumulates, and a silent sample is clear of every boundary; both clauses. -/
theorem witness_PhaseAndSampleAccuracy :
    (1 ≤ 1 ∧ [127#8, 127].length = 2 * 1 ∧ 0 < noutOf 1) ∧ accumulatedError exactNumerics 1 = 0 ∧ (0 : ℝ) ≤ 1 ∧
      exactScaled 1 (phases exactNumerics.toNumOps (component 0, component 0) (samplesOf [127, 127])) 0 = 0 ∧
      ClearOfBoundaries 0 0 := by
  refine ⟨by decide, by simp [accumulatedError, exactNumerics], by norm_num, ?_, fun k hk => by simpa using hk⟩
  simp [exactScaled, lowPass, irfftList, maskList, maskBin, binSource, cutoffOf, cutoffDiv, decimIndex, exactOps, idftExact,
    NumOps.czero]

theorem witness_RfftWritesSpectrum :
    (small .rfft).planValid = true ∧ (small .rfft).bufs = some smallBuffers ∧ smallBuffers.ph = [⟨1⟩, ⟨2⟩].map some ∧
      [Code.mk 1, ⟨2⟩].length = (small .rfft).nReg.toNat ∧
      smallBuffers.spec.length = (small .rfft).nReg.toNat / 2 + 1 := by decide

/-- With a passband: bin 1 of `N = 28` is the only bin read, and the only one written. -/
theorem witness_MaskWritesFilteredSpectrum :
    ∃ (b : Buffers) (spec : Nat → Code × Code), mask28.bufs = some b ∧ mask28.cutoffReg.toNat = mask28.nReg.toNat / 14 ∧
      b.fspec.length = mask28.nReg.toNat ∧ 1 < mask28.cutoffReg.toNat ∧
      ∀ k, 1 ≤ k → k < mask28.cutoffReg.toNat → b.spec[k]? = some (some (spec k)) := by
  refine ⟨_, fun _ => (⟨5⟩, ⟨6⟩), rfl, rfl, rfl, by decide, fun k h₁ h₂ => ?_⟩
  have h : k < 2 := h₂
  have : k = 1 := by omega
  subst this
  rfl

theorem witness_IrfftWritesFilteredSignal :
    (small .irfft).planValid = true ∧ (small .irfft).bufs = some smallBuffers ∧
      smallBuffers.fspec = [(⟨7⟩, ⟨8⟩), (⟨9⟩, ⟨10⟩)].map some ∧
      [(Code.mk 7, Code.mk 8), (⟨9⟩, ⟨10⟩)].length = (small .irfft).nReg.toNat ∧
      smallBuffers.fsig.length = (small .irfft).nReg.toNat := by decide

theorem witness_MaskIsHermitian : Nonempty (Numerics ℝ) ∧ 28 % 2 = 0 ∧ 1 ≤ 27 ∧ 27 < 28 :=
  ⟨⟨exactNumerics⟩, by decide⟩

theorem witness_SmallSizesAreSilent : Nonempty (Numerics ℝ) ∧ (1 ≤ 1 ∧ 1 ≤ 27) ∧ (1 ≤ 27 ∧ 27 ≤ 27) :=
  ⟨⟨exactNumerics⟩, by decide⟩

/-- `N = 4`: even, with an inner bin for the last clause. -/
theorem witness_ForwardTransformProperties : 1 ≤ 4 ∧ 4 % 2 = 0 ∧ 4 ≤ 4 ∧ (1 ≤ 3 ∧ 3 < 4) := by decide

/-- `N = 4` with bins `0, j, 2, -j`: a spectrum that is Hermitian-symmetric and not real. -/
theorem witness_HalfSpectrumFormAgrees :
    ∃ F : Fin 4 → ℂ, F 1 ≠ 0 ∧ (F ⟨0, by decide⟩).im = 0 ∧
      ∀ (k : Nat) (_ : 1 ≤ k) (h : k < 4), F ⟨4 - k, by omega⟩ = (starRingEnd ℂ) (F ⟨k, h⟩) := by
  refine ⟨fun k => if k = 1 then Complex.I else if k = 3 then -Complex.I else if k = 2 then 2 else 0, by simp, by simp, ?_⟩
  intro k h₁ h₂
  interval_cases k <;> simp [Fin.ext_iff, Complex.ext_iff]

theorem witness_FilterIsCircularConvolution : 1 ≤ 2 ∧ [(1 : ℝ), 2].length = 2 ∧ 1 < 2 := by simp

/-- The passband at `N = 28` and at both ends for `N = 1024`; the stopband at both ends, bin 0, and `N = 1`. -/
theorem witness_FilterProperty :
    (1 ≤ 1 ∧ 1 + 1 ≤ cutoffOf 28) ∧ (1 ≤ 72 ∧ 72 + 1 ≤ cutoffOf 1024) ∧ (cutoffOf 1024 ≤ 73 ∧ 73 ≤ 1024 / 2) ∧
      (cutoffOf 1024 ≤ 512 ∧ 512 ≤ 1024 / 2) ∧ (1 ≤ 1 ∧ (0 = 0 ∨ (cutoffOf 1 ≤ 0 ∧ 0 ≤ 1 / 2))) := by decide

theorem witness_PassbandOutputGain : (1 ≤ 1 ∧ 1 + 1 ≤ cutoffOf 28) ∧ (1 ≤ 72 ∧ 72 + 1 ≤ cutoffOf 1024) := by decide

theorem witness_DecimWritesOutputChunk :
    (small .decim).bufs = some smallBuffers ∧ smallBuffers.obuf.length = (small .decim).noutReg.toNat ∧
      ∀ m, m < (small .decim).noutReg.toNat → smallBuffers.fsig[5 * m]? = some (some (Code.mk 11)) := by decide

theorem witness_NarrowingWraps : (-32768 : Int) ≤ -32768 ∧ (-32768 : Int) ≤ 32767 ∧ (32767 : Int) ≤ 32767 := by decide

theorem witness_EmitAppendsChunk :
    (small .emit).sinkReady = true ∧ (small .emit).bufs = some smallBuffers ∧ smallBuffers.obuf = [1121].map some ∧
      [1121#16].length = (small .emit).noutReg.toNat ∧ 0 < (small .emit).noutReg.toNat := by decide

theorem witness_WaitingKeepsAllState :
    (small .fetch).source = [] ∧ { small .emit with sinkReady := false }.sinkReady = false := by decide

/-- No buffers, with plans, a sink that accepts, an answer there; no plans, with and without buffers; and the codes next to the stage
codes. -/
theorem witness_ImpossibleStatesFault :
    let s := { small .demod with bufs := none, source := [.deviceError] }
    let noPlans := { small .rfft with planValid := false }
    (s.bufs = none ∧ s.planValid = true ∧ s.sinkReady = true ∧ s.source ≠ []) ∧
      (noPlans.bufs = some smallBuffers ∧ noPlans.planValid = false) ∧ (ended.bufs = none ∧ ended.planValid = false) ∧
      ∀ c ∈ [0#4, 2#4, 11#4, 15#4],
        engineNext { small .demod with stage := c } = true ∧ { small .demod with stage := c }.st = .running ∧
          (c.toNat < 3 ∨ 10 < c.toNat) := by decide

/-- The last element missing in IQBUF, PH, FSPEC and OBUF, and FSIG[0], the only one that DECIM reads there. -/
theorem witness_UnwrittenElementFaults :
    let b := { smallBuffers with
      iq := [some 1, some 1, some 1, none], ph := [some ⟨1⟩, none], fspec := [some (⟨7⟩, ⟨8⟩), none],
      fsig := [none, some ⟨12⟩], obuf := [none] }
    let s := { small .demod with bufs := some b }
    s.bufs = some b ∧ s.planValid = true ∧ s.sinkReady = true ∧
      ((∀ j, j < 3 → b.iq[j]? = some (some 1)) ∧ b.iq[3]? = some none ∧ 3 < 2 * s.nReg.toNat) ∧
      (b.ph[0]? = some (some ⟨1⟩) ∧ b.ph[1]? = some none ∧ 1 < s.nReg.toNat) ∧
      (b.fspec[0]? = some (some (⟨7⟩, ⟨8⟩)) ∧ b.fspec[1]? = some none ∧ 1 < s.nReg.toNat) ∧
      (b.fsig[5 * 0]? = some none ∧ 0 < s.noutReg.toNat) ∧ (b.obuf[0]? = some none ∧ 0 < s.noutReg.toNat) := by decide

/-- MASK's clause at `N = 28`: bin 1, the only one it reads, missing. -/
theorem witness_UnwrittenElementFaults_mask :
    ∃ b : Buffers, { mask28 with bufs := some (freshBuffers 56 28 6) }.bufs = some b ∧ b.spec[1]? = some none ∧ 1 ≤ 1 ∧
      1 < mask28.cutoffReg.toNat ∧ mask28.cutoffReg.toNat = mask28.nReg.toNat / 14 :=
  ⟨_, rfl, rfl, by decide, by decide, rfl⟩

/-- A small running state is configured and its buffers have their lengths. -/
theorem small_configured (i : Instr) : Configured (small i) :=
  ⟨by simp [small], by simp [small], by simp [small, sizeN], by simp [small, cutoffOf, cutoffDiv, sizeN],
    by simp [small, noutOf, sizeN, stride]⟩

theorem small_shaped (i : Instr) : Shaped (small i) smallBuffers :=
  ⟨rfl, rfl, by simp [smallBuffers, small, specLen], rfl, rfl, rfl⟩

/-- A running state, at DEMOD, that meets the invariant. -/
theorem witness_StepKeepsInvariant : Inv (small .demod) where
  stage_running _ := by decide
  stage_zero h := absurd rfl h
  prev_re := by decide
  prev_im := by decide
  prev_seed _ := by decide
  err_fault := by decide
  eos_end := by decide
  plan := by decide
  idle_len h := by cases h
  sizes_zero h := by rcases h with h | h <;> cases h
  configured _ := small_configured .demod
  no_bufs h := by rcases h with h | h | h <;> cases h
  has_bufs _ := ⟨smallBuffers, rfl, small_shaped .demod, by constructor <;> intro <;> rfl⟩

/-- IDLE is admitted whatever the capacity, and its step, refusing RUN, answers a next state. -/
theorem witness_StepKeepsAdmitted :
    Admitted (before State.reset (.ctlWrite 0 0x20000000)) ∧
      step (before State.reset (.ctlWrite 0 0x20000000)) = .next { State.reset with cmdErr := true } :=
  ⟨fun h => by (rcases h with h | h | h <;> cases h), rfl⟩

theorem witness_DriverStateTransitions :
    step (before ready (.ctlWrite 0 0x20000000)) = .next { ready with st := .running, stage := 3 } ∧
      resetNext (before ready (.ctlWrite 0 0x20000000)) = false ∧
      step (before faulted (.reset 0 [])) = .next State.reset ∧ resetNext (before faulted (.reset 0 [])) = true :=
  ⟨rfl, rfl, rfl, rfl⟩

/-- A step of the loop that stays RUNNING and moves STAGE. -/
theorem witness_StageSuccessors :
    step (small .emit) = .next { small .fetch with sink := [0x61, 0x04] } ∧ (small .emit).st = .running ∧
      { small .fetch with sink := [0x61, 0x04] }.st = .running := ⟨rfl, rfl, rfl⟩

theorem witness_OnlyDemodWritesPrev :
    step (small .emit) = .next { small .fetch with sink := [0x61, 0x04] } ∧ resetNext (small .emit) = false ∧
      ¬(engineNext (small .emit) = true ∧ (small .emit).st = .running ∧ (small .emit).stage = opcode .demod) :=
  ⟨rfl, rfl, by decide⟩

/-- A step that appends bytes. -/
theorem witness_SinkIsAppendOnly :
    step (small .emit) = .next { small .fetch with sink := [] ++ [0x61, 0x04] } ∧ [0x61#8, 0x04] ≠ [] := ⟨rfl, by decide⟩

/-- All four flags' premises at once: a RELEASE after end of stream and a refused access. -/
theorem witness_FlagsAreSticky :
    let s := { small .release with cmdErr := true }
    step s = .next { ended with cmdErr := true } ∧ resetNext s = false ∧ s.eos = true ∧ s.cmdErr = true ∧ s.st ≠ .idle ∧
      s.planValid = true ∧ { ended with cmdErr := true }.planValid = false :=
  ⟨rfl, rfl, rfl, rfl, by decide, rfl, rfl⟩

theorem witness_ConfigurationIsConstant :
    step (small .release) = .next ended ∧ resetNext (small .release) = false ∧ (small .release).st ≠ .idle :=
  ⟨rfl, rfl, by decide⟩

theorem witness_HostCannotDisturbRun :
    (before (small .rfft) (.ctlWrite 0 0x20000000)).st = .running ∧
      (before (small .rfft) (.ctlWrite 0 0x20000000)).inputs = .ctlWrite 0 0x20000000 :: [] ∧
      (before (small .rfft) (.ctlRead 1)).inputs = .ctlRead 1 :: [] := by decide

theorem witness_DoneAndFaultAreTerminal :
    (ended.st = .done ∧ resetNext ended = false) ∧ (faulted.st = .fault ∧ resetNext faulted = false) := by decide

theorem witness_ChunkInSevenSteps :
    let s := { small .fetch with source := [.obtained [227, 127, 127, 227], .deviceError] }
    (s.st = .running ∧ s.stage = opcode .fetch ∧ s.inputs = [] ∧ s.sinkReady = true ∧ s.planValid = true) ∧
      Configured s ∧ s.bufs = some smallBuffers ∧ Shaped s smallBuffers ∧
      s.source = .obtained [227, 127, 127, 227] :: [.deviceError] ∧ [227#8, 127, 127, 227].length = s.chunkLen.toNat :=
  ⟨by decide, ⟨by decide, rfl, rfl, by decide, by decide⟩, rfl,
    ⟨rfl, rfl, by simp [smallBuffers, small, specLen], rfl, rfl, rfl⟩, rfl, rfl⟩

/-- Two chunks, then a short fill, which is a failure. -/
theorem witness_WholeRunReachesDone :
    let input := [[227#8, 127, 127, 227], [127, 27, 27, 127]]
    let s := { small .fetch with source := input.map .obtained ++ [.obtained [1]] }
    (s.st = .running ∧ s.stage = opcode .fetch ∧ s.inputs = [] ∧ s.sinkReady = true ∧ s.planValid = true) ∧
      Configured s ∧ s.bufs = some smallBuffers ∧ Shaped s smallBuffers ∧ (∀ x ∈ input, x.length = s.chunkLen.toNat) ∧
      (∀ bytes, FillAnswer.obtained [1] = .obtained bytes → bytes.length ≠ s.chunkLen.toNat) ∧
      s.source = input.map .obtained ++ .obtained [1] :: [] :=
  ⟨by decide, ⟨by decide, rfl, rfl, by decide, by decide⟩, rfl,
    ⟨rfl, rfl, by simp [smallBuffers, small, specLen], rfl, rfl, rfl⟩, by decide,
    fun bytes h => by cases h; decide, rfl⟩

/-- Reset values, a sink that holds a byte, one chunk, a failure and a later answer. -/
theorem witness_RunFromReset :
    let input := [[227#8, 127, 127, 227]]
    let s := { State.reset with
      source := input.map FillAnswer.obtained ++ FillAnswer.deviceError :: [FillAnswer.obtained [1]]
      sink := [9]
      inputs := [.ctlWrite 0 (0x1#4 ++ 4#28), .ctlWrite 0 0x20000000#32] }
    s = { State.reset with
      source := s.source, sink := s.sink, sinkReady := s.sinkReady, inputs := s.inputs, hostData := s.hostData,
      freeCount := s.freeCount } ∧
      s.sinkReady = true ∧ (4#28).toNat ≠ 0 ∧ (4#28).toNat % 2 = 0 ∧ (∀ x ∈ input, x.length = (4#28).toNat) ∧
      ∀ bytes, FillAnswer.deviceError = .obtained bytes → bytes.length ≠ (4#28).toNat :=
  ⟨rfl, rfl, by decide, by decide, by decide, fun _ h => by cases h⟩

theorem witness_SilentChunkIsAllZero : Nonempty (Numerics ℝ) ∧ 1 ≤ 1 := ⟨⟨exactNumerics⟩, by decide⟩

end Sys2Proof.Tests
end

/-! The registers after a successful INIT (00_scope R7, 40_init R123). -/

namespace Sys2Proof.Machine

open Sys2Proof.Config

/-! ## The derived sizes as floor and ceiling -/

/-- `CUTOFF = floor(N / 14)` (00_scope R7). -/
theorem cutoffOf_eq_iff {N c : Nat} : cutoffOf N = c ↔ 14 * c ≤ N ∧ N < 14 * (c + 1) := by
  unfold cutoffOf cutoffDiv
  omega

/-- `NOUT = ceil(N / 5)` (43_decim R191): as many samples as cover `N` in steps of 5. -/
theorem le_five_mul_noutOf (N : Nat) : N ≤ 5 * noutOf N := by
  unfold noutOf stride
  omega

theorem noutOf_pos (N : Nat) : 0 < noutOf N := Nat.succ_pos _

/-- The largest index that DECIM reads is `5 (NOUT - 1) <= N - 1` (43_decim R191). -/
theorem five_mul_noutOf_sub_one_le {N : Nat} (hN : 0 < N) : 5 * (noutOf N - 1) ≤ N - 1 :=
  Nat.le_sub_one_of_lt (decimIndex_bound N (noutOf N - 1) hN (Nat.sub_one_lt (noutOf_pos N).ne'))

theorem cutoffOf_le (N : Nat) : cutoffOf N ≤ N := Nat.div_le_self _ _

theorem noutOf_le {N : Nat} (hN : 0 < N) : noutOf N ≤ N := by
  unfold noutOf stride
  omega

/-! ## INIT and the configuration registers -/

/-- An accepted `L` has 28 bits, so the registers of 10_state R26 hold every size derived from it uncut. -/
theorem configured_configure {s : State} (hpos : s.chunkLen.toNat ≠ 0) (heven : s.chunkLen.toNat % 2 = 0) :
    Configured (s.configure (sizeN s.chunkLen.toNat)) := by
  have hN : 0 < sizeN s.chunkLen.toNat := by unfold sizeN; omega
  have hlt : sizeN s.chunkLen.toNat < 2 ^ 32 :=
    (Nat.div_le_self _ 2).trans_lt (s.chunkLen.isLt.trans (by decide))
  constructor
  case len_pos => exact hpos
  case len_even => exact heven
  case n_eq => exact Nat.mod_eq_of_lt hlt
  case cutoff_eq => exact Nat.mod_eq_of_lt ((cutoffOf_le _).trans_lt hlt)
  case nout_eq => exact Nat.mod_eq_of_lt ((noutOf_le hN).trans_lt hlt)

/-- Of the outcomes of INIT in IDLE, only the successful one leads to READY. -/
theorem initWith_of_ready {cap : Capacity} {len : BitVec 28} {s : State} (hidle : s.st = .idle)
    (hready : (initWith cap len s).st = .ready) :
    len.toNat ≠ 0 ∧ len.toNat % 2 = 0 ∧ cap.admits (sizeN len.toNat) = true ∧
      initWith cap len s = ({ s with chunkLen := len } : State).configure (sizeN len.toNat) := by
  obtain ⟨hne, -⟩ | ⟨-, ⟨e, -, herr⟩ | hok⟩ := init_cases cap len s
  · exact absurd hidle hne
  · simp [herr] at hready
  · exact hok

/-- What an accepted configuration says of its registers (00_scope R7, 43_decim R191). -/
theorem Configured.derived_sizes {s : State} (h : Configured s) :
    2 * s.nReg.toNat = s.chunkLen.toNat ∧ 1 ≤ s.nReg.toNat ∧
      14 * s.cutoffReg.toNat ≤ s.nReg.toNat ∧ s.nReg.toNat < 14 * (s.cutoffReg.toNat + 1) ∧
      s.nReg.toNat ≤ 5 * s.noutReg.toNat ∧ 5 * (s.noutReg.toNat - 1) ≤ s.nReg.toNat - 1 := by
  obtain ⟨hpos, heven, hn, hcutoff, hnout⟩ := h
  rw [← hn] at hcutoff hnout
  have hL : 2 * s.nReg.toNat = s.chunkLen.toNat := by rw [hn, sizeN]; omega
  have hN : 1 ≤ s.nReg.toNat := by omega
  obtain ⟨hfloor, hfloor_lt⟩ := cutoffOf_eq_iff.mp hcutoff.symm
  rw [hnout]
  exact ⟨hL, hN, hfloor, hfloor_lt, le_five_mul_noutOf _, five_mul_noutOf_sub_one_le hN⟩

/-- Settles O14: a successful INIT leaves an accepted configuration, whose registers are the derived sizes. -/
theorem initDerivedSizes : Obligations.InitDerivedSizes := by
  intro cap len s hidle hready
  obtain ⟨hpos, heven, -, hnext⟩ := initWith_of_ready hidle hready
  rw [hnext]
  exact (configured_configure (s := { s with chunkLen := len }) hpos heven).derived_sizes

end Sys2Proof.Machine

/-! The codes of the sequencer's operations, the kinds of step there are, and what the stage operations leave unchanged. -/

namespace Sys2Proof.Machine

open Sys2Proof.Config

/-! ## The codes of the stage operations -/

theorem decodeStage_opcode {i : Instr} (hi : i.issuer = .sequencer) : decodeStage (opcode i) = .ok i := by
  cases i with
  | init | run => cases hi
  | fetch | demod | rfft | mask | irfft | decim | emit | release => rfl

theorem opcode_injective {i j : Instr} (hi : i.issuer = .sequencer) (hj : j.issuer = .sequencer)
    (h : opcode i = opcode j) : i = j := by
  have hok : (Except.ok i : Except DecodeError Instr) = .ok j := by
    rw [← decodeStage_opcode hi, ← decodeStage_opcode hj, h]
  exact Except.ok.inj hok

/-- The stage operations have exactly the codes 3 to 10 (10_state R24). -/
theorem stageCode_iff {c : BitVec 4} :
    (3 ≤ c.toNat ∧ c.toNat ≤ 10) ↔ ∃ i : Instr, i.issuer = .sequencer ∧ c = opcode i := by
  constructor
  · rintro ⟨hlo, hhi⟩
    have hdec : ∃ i, decodeStage c = .ok i := by
      unfold decodeStage
      interval_cases c.toNat <;> exact ⟨_, rfl⟩
    obtain ⟨i, hi⟩ := hdec
    exact ⟨i, (decodeStage_ok hi).2, (decodeStage_ok hi).1⟩
  · rintro ⟨i, hi, rfl⟩
    cases i with
    | init | run => cases hi
    | fetch | demod | rfft | mask | irfft | decim | emit | release => decide

/-- A code outside 3 to 10 stands for no stage operation (93 U12). -/
theorem decodeStage_reserved {c : BitVec 4} (h : c.toNat < 3 ∨ 10 < c.toNat) : ∃ e, decodeStage c = .error e := by
  cases hd : decodeStage c with
  | error e => exact ⟨e, rfl⟩
  | ok i =>
    obtain ⟨hc, hi⟩ := decodeStage_ok hd
    have := stageCode_iff.mpr ⟨i, hi, hc⟩
    omega

/-! ## The step -/

/-- The sequencer's turn on a stage code runs its operation (44_driver R211). -/
theorem step_of_stage {s : State} {i : Instr} (heng : engineNext s = true) (hrun : s.st = .running)
    (hi : i.issuer = .sequencer) (hstage : s.stage = opcode i) : step s = exec i s.taken := by
  have hst : s.taken.st = .running := hrun
  have hdec : decodeStage s.taken.stage = .ok i := by
    rw [show s.taken.stage = opcode i from hstage, decodeStage_opcode hi]
  rw [step, nextTurn_of_engineNext heng, sequencerTurn, if_pos hst, hdec]

/-- The sequencer's turn on any other code stops the model (93 U12). -/
theorem step_of_reserved {s : State} (heng : engineNext s = true) (hrun : s.st = .running)
    (hcode : s.stage.toNat < 3 ∨ 10 < s.stage.toNat) : step s = .fault (.reservedStage s.stage) := by
  have hst : s.taken.st = .running := hrun
  obtain ⟨e, he⟩ := decodeStage_reserved hcode
  have hdec : decodeStage s.taken.stage = .error e := he
  rw [step, nextTurn_of_engineNext heng, sequencerTurn, if_pos hst, hdec]
  rfl

/-- A host write of a legal command word runs the command (10_state R27). -/
theorem step_of_command {s : State} {w : Word} {rest : List Input} {i : Instr}
    (hin : s.inputs = .ctlWrite 0 w :: rest) (hdec : decodeCommand w = .ok i) :
    step s = exec i { s with inputs := rest } := by
  rw [step, nextTurn_cons hin, inputTurn, writeTurn, if_pos rfl, hdec]

/-- A host read ends in the state of `readTurn` (10_state R26). -/
theorem step_of_read {s : State} {reg : Nat} {rest : List Input} (hin : s.inputs = .ctlRead reg :: rest) :
    step s = .next (readTurn { s with inputs := rest } reg) := by
  rw [step, nextTurn_cons hin, inputTurn]

/-- The only stops are those of the sequencer's turn in RUNNING: commands and the other inputs always answer a next state. -/
theorem step_answers {s : State} (h : ¬(engineNext s = true ∧ s.st = .running)) : ∃ t, step s = .next t := by
  by_cases heng : engineNext s = true
  · have hst : s.taken.st ≠ .running := fun hrun => h ⟨heng, hrun⟩
    rw [step, nextTurn_of_engineNext heng, sequencerTurn, if_neg hst]
    exact ⟨_, rfl⟩
  · cases hin : s.inputs with
    | nil => simp [engineNext, hin] at heng
    | cons a rest =>
      rw [step, nextTurn_cons hin]
      cases a with
      | engine => simp [engineNext, hin] at heng
      | ctlRead | answer | sink | reset => exact ⟨_, rfl⟩
      | ctlWrite reg w =>
        simp only [inputTurn, writeTurn]
        split_ifs with hreg
        · cases hdec : decodeCommand w with
          | error e => exact ⟨_, rfl⟩
          | ok i => obtain ⟨len, rfl⟩ | rfl := decodeCommand_ok hdec <;> exact ⟨_, rfl⟩
        · exact ⟨_, rfl⟩

/-! ## The kinds of step -/

/-- What a step that answers a next state has done: `step_cases` with the host's commands sorted by their effect, so that what a
step keeps is read off the target. -/
inductive Move (s : State) : State → Prop where
  /-- No operation has run: only the environment, and CMD_ERR, which can only be set, have changed. -/
  | environment (cmdErr : Bool) (source : List FillAnswer) (sinkReady : Bool) (inputs : List Input) (hostData : Word)
      (sticky : s.cmdErr = true → cmdErr = true) :
      Move s { s with
        cmdErr := cmdErr, source := source, sinkReady := sinkReady, inputs := inputs, hostData := hostData }
  | reset (sent : Nat) (resumed : List FillAnswer) (rest : List Input) (head : s.inputs = .reset sent resumed :: rest) :
      Move s (({ s with inputs := rest } : State).takeReset sent resumed)
  /-- INIT in IDLE with a length that is not accepted (60_exceptions R269). -/
  | initError (len : BitVec 28) (rest : List Input) (e : ErrCode) (idle : s.st = .idle) (error : e ≠ .noError) :
      Move s (({ s with inputs := rest, chunkLen := len } : State).raiseError e)
  /-- INIT in IDLE with an accepted length (40_init R123). -/
  | initOk (len : BitVec 28) (rest : List Input) (idle : s.st = .idle) (pos : len.toNat ≠ 0) (even : len.toNat % 2 = 0)
      (admitted : capacity.admits (sizeN len.toNat) = true) :
      Move s (({ s with inputs := rest, chunkLen := len } : State).configure (sizeN len.toNat))
  /-- RUN in READY (44_driver R210). -/
  | run (rest : List Input) (ready : s.st = .ready) :
      Move s { s with inputs := rest, st := .running, stage := opcode .fetch }
  /-- The sequencer's turn in RUNNING (44_driver R211). -/
  | stage (i : Instr) (t : State) (turn : engineNext s = true) (running : s.st = .running) (code : s.stage = opcode i)
      (issuer : i.issuer = .sequencer) (next : exec i s.taken = .next t) : Move s t

theorem move_refuseAccess (s : State) (rest : List Input) : Move s ({ s with inputs := rest } : State).refuseAccess :=
  .environment true s.source s.sinkReady rest s.hostData fun _ => rfl

theorem move_initWith (s : State) (len : BitVec 28) (rest : List Input) :
    Move s (initWith capacity len { s with inputs := rest }) := by
  obtain ⟨-, heq⟩ | ⟨hidle, ⟨e, he, heq⟩ | ⟨hpos, heven, hadm, heq⟩⟩ := init_cases capacity len { s with inputs := rest }
  · rw [heq]; exact move_refuseAccess s rest
  · rw [heq]; exact .initError len rest e hidle he
  · rw [heq]; exact .initOk len rest hidle hpos heven hadm

theorem move_startRun (s : State) (rest : List Input) : Move s (startRun { s with inputs := rest }) := by
  unfold startRun
  split
  · exact .run rest ‹_›
  · exact move_refuseAccess s rest

theorem move_of_step {s t : State} (h : step s = .next t) : Move s t := by
  obtain ⟨heng, ⟨-, rfl⟩ | ⟨hrun, i, hcode, hi, hexec⟩⟩ | ⟨reg, w, rest, -, rfl | ⟨len, rfl⟩ | rfl⟩ | ⟨reg, rest, -, rfl⟩ |
    ⟨a, rest, -, rfl⟩ | ⟨a, rest, -, rfl⟩ | ⟨sent, resumed, rest, hin, rfl⟩ := step_cases h
  · exact .environment _ _ _ _ _ id
  · exact .stage i t heng hrun hcode hi hexec
  · exact move_refuseAccess s rest
  · exact move_initWith s len rest
  · exact move_startRun s rest
  · exact .environment _ _ _ _ _ fun hset => by simp [hset]
  · exact .environment _ _ _ _ _ id
  · exact .environment _ _ _ _ _ id
  · exact .reset sent resumed rest hin

/-! ## What the stage operations leave unchanged -/

/-- What a stage operation leaves unchanged of the Engine (44_driver R211), each clause with the one operation it excepts. -/
structure StageFrame (i : Instr) (s t : State) : Prop where
  chunkLen : t.chunkLen = s.chunkLen
  nReg : t.nReg = s.nReg
  cutoffReg : t.cutoffReg = s.cutoffReg
  noutReg : t.noutReg = s.noutReg
  err : t.err = s.err
  cmdErr : t.cmdErr = s.cmdErr
  eos : s.eos = true → t.eos = true
  st : i ≠ .release → t.st = s.st
  planValid : i ≠ .release → t.planValid = s.planValid
  prev : i ≠ .demod → t.prevRe = s.prevRe ∧ t.prevIm = s.prevIm

theorem stageFrame_refl (i : Instr) (s : State) : StageFrame i s s := by
  constructor <;> simp

/-- Buffers and STAGE are no part of the frame. -/
theorem stageFrame_advance (i : Instr) (s : State) (b : Buffers) (next : Instr) : StageFrame i s (s.advance b next) := by
  constructor <;> simp

theorem stageFrame_of_exec {i : Instr} {s t : State} (hi : i.issuer = .sequencer) (h : exec i s = .next t) :
    StageFrame i s t := by
  cases i with
  | init | run => cases hi
  | fetch =>
    obtain rfl | ⟨a, rest, b, bytes, iq, -, -, -, -, rfl⟩ | ⟨a, rest, b, -, -, -, rfl⟩ := fetch_next h
    · exact stageFrame_refl _ _
    · constructor <;> simp
    · constructor <;> simp
  | demod => obtain ⟨b, samples, ph, -, -, -, rfl⟩ := demod_next h; constructor <;> simp
  | rfft => obtain ⟨b, xs, ys, -, -, -, -, rfl⟩ := rfft_next h; exact stageFrame_advance _ _ _ _
  | mask => obtain ⟨b, xs, ys, -, -, -, rfl⟩ := mask_next h; exact stageFrame_advance _ _ _ _
  | irfft => obtain ⟨b, xs, ys, -, -, -, -, rfl⟩ := irfft_next h; exact stageFrame_advance _ _ _ _
  | decim => obtain ⟨b, xs, ys, -, -, -, rfl⟩ := decim_next h; exact stageFrame_advance _ _ _ _
  | emit =>
    obtain rfl | ⟨b, out, -, -, rfl⟩ := emit_next h
    · exact stageFrame_refl _ _
    · constructor <;> simp
  | release =>
    obtain rfl : releaseAll s = t := by simpa [exec, execRelease] using h
    constructor <;> simp [releaseAll]

end Sys2Proof.Machine

/-! The control registers as the host sees them, and the reset values (10_state R26 to R30, R43). -/

namespace Sys2Proof.Machine

open Sys2Proof.Config

/-! ## The registers as the host reads them -/

/-- Above register 5 a read returns 0 and is refused (60_exceptions R265). -/
theorem readReg_of_gt {s : State} {reg : Nat} (h : 5 < reg) : readReg s reg = 0 := by
  obtain ⟨k, rfl⟩ := Nat.exists_eq_add_of_le' h
  rfl

/-- The six registers side by side (10_state R26). -/
theorem readReg_eq (s : State) (reg : Nat) :
    readReg s reg =
      if reg = 1 then statusWord s
      else if reg = 2 then s.chunkLen.setWidth 32
      else if reg = 3 then s.nReg
      else if reg = 4 then s.cutoffReg
      else if reg = 5 then s.noutReg
      else 0 := by
  by_cases h : 5 < reg
  · rw [readReg_of_gt h]
    repeat rw [if_neg (by omega)]
  · interval_cases reg <;> rfl

/-- Settles O7: a read's only effects are the value it returns and, above register 5, CMD_ERR. -/
theorem hostReadReturnsRegister : Obligations.HostReadReturnsRegister := by
  intro s reg rest hin
  rw [step_of_read hin, readTurn, readReg_eq]
  rfl

/-- Settles O3: the write is taken off the script and the command it decodes to runs. -/
theorem stepRunsHostCommand : Obligations.StepRunsHostCommand :=
  fun _ _ _ _ hin hdec => step_of_command hin hdec

/-! ## STATUS -/

/-- STATUS side by side, the highest field first (10_state R28). -/
theorem statusWord_eq (s : State) :
    statusWord s = 0#18 ++ BitVec.ofBool s.cmdErr ++ BitVec.ofBool s.eos ++ errCode s.err ++ BitVec.ofBool s.planValid ++
      s.stage ++ stCode s.st := rfl

/-- Settles O8: each field is found by dropping the fields below it. -/
theorem statusWordFields : Obligations.StatusWordFields := by
  intro s
  rw [statusWord_eq]
  refine ⟨?st, ?stage, ?plan, ?err, ?eos, ?cmdErr, ?reserved, ⟨rfl, rfl, rfl, rfl, rfl⟩, ⟨rfl, rfl, rfl⟩⟩
  case st | stage | err =>
    repeat rw [BitVec.extractLsb'_append_eq_of_le (by decide)]
    rw [BitVec.extractLsb'_append_eq_of_add_le (by decide), BitVec.extractLsb'_eq_self]
  case reserved =>
    repeat rw [BitVec.extractLsb'_append_eq_of_le (by decide)]
    exact BitVec.extractLsb'_eq_self
  case plan | eos | cmdErr =>
    simp only [BitVec.getLsbD_append]
    simp

/-! ## Reset -/

/-- Settles O9: the reset values are the model's, field by field. -/
theorem resetValues : Obligations.ResetValues := by
  refine ⟨rfl, rfl, rfl, rfl, rfl, rfl, rfl, rfl, rfl, rfl, rfl, rfl, rfl⟩

end Sys2Proof.Machine

/-! The stops of the model: absent buffers and plans, reserved codes, elements without a value (10_state R38; 93 U5, U8, U12). -/

namespace Sys2Proof.Machine

open Sys2Proof.Config

/-! ## The stops as outcomes -/

@[simp] theorem outcome_fault (f : Fault) : outcome (.error (.fault f)) = .fault f := rfl

theorem withBuffers_none {α : Type} {s : State} (k : Buffers → Access α) (h : s.bufs = none) :
    withBuffers s k = .error (.fault .buffersAbsent) := by
  rw [withBuffers, h]

theorem withBuffers_some {α : Type} {s : State} {b : Buffers} (k : Buffers → Access α) (h : s.bufs = some b) :
    withBuffers s k = k b := by
  rw [withBuffers, h]

theorem withPlans_false {α : Type} {s : State} (k : Access α) (h : s.planValid = false) :
    withPlans s k = .error (.fault .plansAbsent) := by
  rw [withPlans, h, if_neg (by decide)]

theorem withPlans_true {α : Type} {s : State} (k : Access α) (h : s.planValid = true) : withPlans s k = k := by
  rw [withPlans, if_pos h]

/-! ## The stage operations without their guards -/

theorem exec_demod (s : State) : exec .demod s = outcome (demodWith numOps s) := rfl
theorem exec_rfft (s : State) : exec .rfft s = outcome (rfftWith numOps s) := rfl
theorem exec_mask (s : State) : exec .mask s = outcome (maskWith numOps s) := rfl
theorem exec_irfft (s : State) : exec .irfft s = outcome (irfftWith numOps s) := rfl
theorem exec_decim (s : State) : exec .decim s = outcome (decimWith numOps s) := rfl
theorem exec_emit (s : State) : exec .emit s = outcome (emitChunk s) := rfl
theorem exec_fetch (s : State) : exec .fetch s = outcome (fetchChunk s) := rfl

/-- Settles O44: the guards come first, the plans' before the buffers', and the decoder stops a reserved STAGE code. -/
theorem impossibleStatesFault : Obligations.ImpossibleStatesFault := by
  refine ⟨fun s hb => ⟨?demod, ?mask, ?decim, fun hp => ⟨?rfft, ?irfft⟩, fun hk => ?emit, fun ha => ?fetch⟩,
    fun s hp => ⟨?rfftPlans, ?irfftPlans⟩, fun s heng hrun hcode => step_of_reserved heng hrun hcode⟩
  case demod => rw [exec_demod, demodWith, withBuffers_none _ hb, outcome_fault]
  case mask => rw [exec_mask, maskWith, withBuffers_none _ hb, outcome_fault]
  case decim => rw [exec_decim, decimWith, withBuffers_none _ hb, outcome_fault]
  case rfft => rw [exec_rfft, rfftWith, withPlans_true _ hp, withBuffers_none _ hb, outcome_fault]
  case irfft => rw [exec_irfft, irfftWith, withPlans_true _ hp, withBuffers_none _ hb, outcome_fault]
  case emit => rw [exec_emit, emitChunk, if_pos hk, withBuffers_none _ hb, outcome_fault]
  case fetch =>
    obtain ⟨a, rest, hsrc⟩ := List.exists_cons_of_ne_nil ha
    rw [exec_fetch, fetchChunk, hsrc]
    simp only [withBuffers_none _ hb, outcome_fault]
  case rfftPlans => rw [exec_rfft, rfftWith, withPlans_false _ hp, outcome_fault]
  case irfftPlans => rw [exec_irfft, irfftWith, withPlans_false _ hp, outcome_fault]

/-! ## The first element that a loop cannot read -/

theorem collect_append_error {α : Type} {f : Nat → Access α} {i : Nat} {post : List Nat} {e : Stop} (hi : f i = .error e) :
    ∀ pre : List Nat, (∀ j ∈ pre, ∃ v, f j = .ok v) → collect f (pre ++ i :: post) = .error e
  | [], _ => by simp [collect, hi]
  | j :: pre, h => by
    obtain ⟨v, hv⟩ := h j (List.mem_cons_self ..)
    have ih := collect_append_error (post := post) hi pre fun k hk => h k (List.mem_cons_of_mem _ hk)
    simp [collect, hv, ih]

/-- A loop over `0 .. n - 1` stops at its first index whose step stops (00_scope R11). -/
theorem collect_range_error {α : Type} {f : Nat → Access α} {n i : Nat} {e : Stop} (hin : i < n) (hi : f i = .error e)
    (hbefore : ∀ j, j < i → ∃ v, f j = .ok v) : collect f (List.range n) = .error e := by
  obtain ⟨m, rfl⟩ := Nat.exists_eq_add_of_lt hin
  rw [show i + m + 1 = i + (m + 1) by omega, List.range_add, List.range_succ_eq_map, List.map_cons, Nat.add_zero]
  exact collect_append_error hi _ fun j hj => hbefore j (List.mem_range.mp hj)

theorem exists_loadElem_ok {α : Type} {name : BufferName} {buf : List (Option α)} {i : Nat} :
    (∃ v, buf[i]? = some (some v)) → ∃ v, loadElem name buf i = .ok v :=
  fun ⟨v, hv⟩ => ⟨v, loadElem_eq_ok.mpr hv⟩

/-- The loop that reads a whole buffer stops at the first element without a value. -/
theorem collect_loadElem_unwritten {α : Type} (name : BufferName) {buf : List (Option α)} {n i : Nat}
    (hbefore : ∀ j, j < i → ∃ v, buf[j]? = some (some v)) (hi : buf[i]? = some none) (hin : i < n) :
    collect (loadElem name buf) (List.range n) = .error (.fault (.unwritten name i)) :=
  collect_range_error hin (loadElem_eq_fault.mpr hi) fun j hj => exists_loadElem_ok (hbefore j hj)

theorem loadSample_ok {iq : List (Option Byte)} {n : Nat} (hre : ∃ v, iq[2 * n]? = some (some v))
    (him : ∃ v, iq[2 * n + 1]? = some (some v)) : ∃ z, loadSample iq n = .ok z := by
  obtain ⟨v, hv⟩ := exists_loadElem_ok (name := .iqbuf) hre
  obtain ⟨w, hw⟩ := exists_loadElem_ok (name := .iqbuf) him
  exact ⟨(component v, component w), by simp only [loadSample, hv, hw]⟩

/-- A sample reads its even byte first, so the first of its two bytes without a value is the one named (41_demod R141). -/
theorem loadSample_unwritten {iq : List (Option Byte)} {i : Nat}
    (hbefore : ∀ j, j < i → ∃ v, iq[j]? = some (some v)) (hi : iq[i]? = some none) :
    loadSample iq (i / 2) = .error (.fault (.unwritten .iqbuf i)) := by
  have hload := (loadElem_eq_fault (name := .iqbuf)).mpr hi
  obtain heven | hodd : 2 * (i / 2) = i ∨ 2 * (i / 2) + 1 = i := by omega
  · simp only [loadSample, heven, hload]
  · obtain ⟨v, hv⟩ := exists_loadElem_ok (name := .iqbuf) (hbefore (2 * (i / 2)) (by omega))
    rw [loadSample, hv, hodd, hload]

theorem collect_loadSample_unwritten {iq : List (Option Byte)} {n i : Nat}
    (hbefore : ∀ j, j < i → ∃ v, iq[j]? = some (some v)) (hi : iq[i]? = some none) (hin : i < 2 * n) :
    collect (loadSample iq) (List.range n) = .error (.fault (.unwritten .iqbuf i)) :=
  collect_range_error (by omega) (loadSample_unwritten hbefore hi) fun j hj =>
    loadSample_ok (hbefore (2 * j) (by omega)) (hbefore (2 * j + 1) (by omega))

/-- Bin 0 is never read: it lies below the passband and, CUTOFF being at most N, is no mirror (42_lpf R166). -/
theorem binSource_zero {n cutoff : Nat} (h : cutoff ≤ n) : binSource n cutoff 0 = .zero := by
  rw [binSource, if_neg (by omega), if_neg (by omega)]

theorem binSource_pass {n cutoff k : Nat} (h₁ : 1 ≤ k) (h₂ : k < cutoff) : binSource n cutoff k = .pass k := by
  rw [binSource, if_pos ⟨h₁, h₂⟩]

theorem collect_loadBin_unwritten (o : NumOps Code) {spec : List (Option (Code × Code))} {n cutoff i : Nat}
    (hbefore : ∀ j, 1 ≤ j → j < i → ∃ v, spec[j]? = some (some v)) (hi : spec[i]? = some none) (hpos : 1 ≤ i)
    (hic : i < cutoff) (hcn : cutoff ≤ n) :
    collect (loadBin o spec n cutoff) (List.range n) = .error (.fault (.unwritten .spec i)) := by
  have hpass : ∀ j, 1 ≤ j → j < cutoff → loadBin o spec n cutoff j = loadElem .spec spec j := by
    intro j h₁ h₂
    rw [loadBin, binSource_pass h₁ h₂]
  refine collect_range_error (hic.trans_le hcn) ?_ fun j hj => ?_
  · rw [hpass i hpos hic, loadElem_eq_fault.mpr hi]
  · obtain rfl | hj₁ : j = 0 ∨ 1 ≤ j := by omega
    · exact ⟨o.czero, by rw [loadBin, binSource_zero hcn]⟩
    · rw [hpass j hj₁ (by omega)]
      exact exists_loadElem_ok (hbefore j hj₁ hj)

theorem collect_loadOut_unwritten (o : NumOps Code) {fsig : List (Option Code)} {N n i : Nat}
    (hbefore : ∀ j, j < i → ∃ v, fsig[5 * j]? = some (some v)) (hi : fsig[5 * i]? = some none) (hin : i < n) :
    collect (loadOut o fsig N) (List.range n) = .error (.fault (.unwritten .fsig (5 * i))) := by
  refine collect_range_error hin ?_ fun j hj => ?_
  · rw [loadOut, decimIndex, stride, loadElem_eq_fault.mpr hi]
  · obtain ⟨v, hv⟩ := exists_loadElem_ok (name := .fsig) (hbefore j hj)
    exact ⟨outSample o N v, by simp only [loadOut, decimIndex, stride, hv]⟩

/-- Settles O45: each operation's reading loop stops at its first element without a value, before anything is written. -/
theorem unwrittenElementFaults : Obligations.UnwrittenElementFaults := by
  intro s b i hb
  refine ⟨fun hbefore hi hin => ?demod, fun hbefore hi hin hp => ?rfft, fun hbefore hi hpos hic hcut => ?mask,
    fun hbefore hi hin hp => ?irfft, fun hbefore hi hin => ?decim, fun hbefore hi hin hk => ?emit⟩
  case demod =>
    rw [exec_demod, demodWith, withBuffers_some _ hb, collect_loadSample_unwritten hbefore hi hin, outcome_fault]
  case rfft =>
    rw [exec_rfft, rfftWith, withPlans_true _ hp, withBuffers_some _ hb, collect_loadElem_unwritten .ph hbefore hi hin,
      outcome_fault]
  case mask =>
    have hcn : s.cutoffReg.toNat ≤ s.nReg.toNat := by rw [hcut]; exact Nat.div_le_self _ _
    rw [exec_mask, maskWith, withBuffers_some _ hb, collect_loadBin_unwritten numOps hbefore hi hpos hic hcn, outcome_fault]
  case irfft =>
    rw [exec_irfft, irfftWith, withPlans_true _ hp, withBuffers_some _ hb,
      collect_loadElem_unwritten .fspec hbefore hi hin, outcome_fault]
  case decim =>
    rw [exec_decim, decimWith, withBuffers_some _ hb, collect_loadOut_unwritten numOps hbefore hi hin, outcome_fault]
  case emit =>
    rw [exec_emit, emitChunk, if_pos hk, withBuffers_some _ hb, collect_loadElem_unwritten .obuf hbefore hi hin, outcome_fault]

end Sys2Proof.Machine

/-! What a step keeps: the admitted chunk length, PREV, the flags and the configuration (10_state R21, R25, R29, R30). -/

namespace Sys2Proof.Machine

open Sys2Proof.Config

/-! ## What a step keeps -/

/-- Settles O48: only INIT sets a chunk length, and it enters READY only with an admitted one. -/
theorem stepKeepsAdmitted : Obligations.StepKeepsAdmitted := by
  refine ⟨fun h => by simp [State.reset] at h, fun s t hs hstep => ?_⟩
  cases move_of_step hstep with
  | environment => exact hs
  | reset => intro h; simp at h
  | initError => intro h; simp at h
  | initOk len rest hidle hpos heven hadm => exact fun _ => hadm
  | run rest hready => exact fun _ => hs (.inl hready)
  | stage i t heng hrun hcode hi hexec =>
    have hlen : t.chunkLen = s.chunkLen := (stageFrame_of_exec hi hexec).chunkLen
    intro _
    rw [hlen]
    exact hs (.inr (.inl hrun))

theorem resetNext_of_head {s : State} {sent : Nat} {resumed : List FillAnswer} {rest : List Input}
    (h : s.inputs = .reset sent resumed :: rest) : resetNext s = true := by
  rw [resetNext, h]

/-- Settles O51: no command and no stage operation but DEMOD has PREV among its targets. -/
theorem onlyDemodWritesPrev : Obligations.OnlyDemodWritesPrev := by
  intro s t hstep hreset hdemod
  cases move_of_step hstep with
  | environment | initError | initOk | run => exact ⟨rfl, rfl⟩
  | reset sent resumed rest head => simp [resetNext_of_head head] at hreset
  | stage i t heng hrun hcode hi hexec =>
    have hne : i ≠ .demod := fun h => hdemod ⟨heng, hrun, by rw [hcode, h]⟩
    exact (stageFrame_of_exec hi hexec).prev hne

/-- Settles O53: outside IDLE the flags are written by stage operations only, and PLAN_VALID by RELEASE only. -/
theorem flagsAreSticky : Obligations.FlagsAreSticky := by
  intro s t hstep hreset
  cases move_of_step hstep with
  | environment cmdErr source sinkReady inputs hostData sticky =>
    exact ⟨id, sticky, fun _ => rfl, fun _ hset hclear => by simp [hset] at hclear⟩
  | reset sent resumed rest head => simp [resetNext_of_head head] at hreset
  | initError len rest e hidle => exact ⟨id, id, fun h => absurd hidle h, fun h => absurd hidle h⟩
  | initOk len rest hidle => exact ⟨id, id, fun h => absurd hidle h, fun h => absurd hidle h⟩
  | run => exact ⟨id, id, fun _ => rfl, fun _ hset hclear => by simp [hset] at hclear⟩
  | stage i t heng hrun hcode hi hexec =>
    have hframe := stageFrame_of_exec hi hexec
    refine ⟨hframe.eos, fun hset => hframe.cmdErr.trans hset, fun _ => hframe.err, fun _ hset hclear => ⟨hrun, ?_⟩⟩
    have hrelease : i = .release := by
      by_contra hne
      have hkept : t.planValid = s.planValid := hframe.planValid hne
      simp [hkept, hset] at hclear
    rw [hcode, hrelease]

/-- Settles O54: outside IDLE a step runs RUN or a stage operation or none, and none of them writes the configuration. -/
theorem configurationIsConstant : Obligations.ConfigurationIsConstant := by
  intro s t hstep hreset hidle
  cases move_of_step hstep with
  | environment | run => exact ⟨rfl, rfl, rfl, rfl⟩
  | reset sent resumed rest head => simp [resetNext_of_head head] at hreset
  | initError len rest e idle => exact absurd idle hidle
  | initOk len rest idle => exact absurd idle hidle
  | stage i t heng hrun hcode hi hexec =>
    have hframe := stageFrame_of_exec hi hexec
    exact ⟨hframe.chunkLen, hframe.nReg, hframe.cutoffReg, hframe.noutReg⟩

end Sys2Proof.Machine

/-! The invariant, its parts, and the form it has while the loop runs (10_state R21 to R40). -/

namespace Sys2Proof.Machine

open Sys2Proof.Config

/-! ## The parts of the invariant -/

theorem Configured.congr {s t : State} (h : Configured s) (hlen : t.chunkLen = s.chunkLen) (hn : t.nReg = s.nReg)
    (hcutoff : t.cutoffReg = s.cutoffReg) (hnout : t.noutReg = s.noutReg) : Configured t where
  len_pos := hlen ▸ h.len_pos
  len_even := hlen ▸ h.len_even
  n_eq := hlen ▸ hn ▸ h.n_eq
  cutoff_eq := hlen ▸ hcutoff ▸ h.cutoff_eq
  nout_eq := hlen ▸ hnout ▸ h.nout_eq

theorem Shaped.congr {s t : State} {b : Buffers} (h : Shaped s b) (hlen : t.chunkLen = s.chunkLen) (hn : t.nReg = s.nReg)
    (hnout : t.noutReg = s.noutReg) : Shaped t b where
  iq_len := hlen ▸ h.iq_len
  ph_len := hn ▸ h.ph_len
  spec_len := hn ▸ h.spec_len
  fspec_len := hn ▸ h.fspec_len
  fsig_len := hn ▸ h.fsig_len
  obuf_len := hnout ▸ h.obuf_len

/-- The buffer that a stage operation reads is written; RELEASE and FETCH read none (10_state R38). -/
def Buffers.inputWritten (b : Buffers) : Instr → Bool
  | .demod => allWritten b.iq
  | .rfft => allWritten b.ph
  | .mask => allWritten b.spec
  | .irfft => allWritten b.fspec
  | .decim => allWritten b.fsig
  | .emit => allWritten b.obuf
  | .init _ | .run | .fetch | .release => true

theorem inputWritten_iff {s : State} {b : Buffers} {i : Instr} (hi : i.issuer = .sequencer) (hcode : s.stage = opcode i) :
    InputWritten s b ↔ b.inputWritten i = true := by
  constructor
  · intro h
    cases i with
    | init | run | fetch | release => rfl
    | demod => exact h.demod_in hcode
    | rfft => exact h.rfft_in hcode
    | mask => exact h.mask_in hcode
    | irfft => exact h.irfft_in hcode
    | decim => exact h.decim_in hcode
    | emit => exact h.emit_in hcode
  · intro h
    have same : ∀ {j : Instr}, j.issuer = .sequencer → s.stage = opcode j → b.inputWritten j = true := fun hj hcode' =>
      opcode_injective hi hj (hcode.symm.trans hcode') ▸ h
    exact ⟨same rfl, same rfl, same rfl, same rfl, same rfl, same rfl⟩

/-- Outside the loop no stage code is in STAGE, so no buffer need be written. -/
theorem inputWritten_of_stage_zero {s : State} (b : Buffers) (h : s.stage = 0) : InputWritten s b := by
  constructor <;> intro hcode <;> rw [h] at hcode <;> exact absurd hcode (by decide)

theorem allWritten_map_some {α : Type} (xs : List α) : allWritten (xs.map some) = true := by
  simp [allWritten]

/-- A complex sample of the input: each part in -127 .. 128 (10_state R21). -/
def InSampleRange (z : Int × Int) : Prop := (-127 ≤ z.1 ∧ z.1 ≤ 128) ∧ (-127 ≤ z.2 ∧ z.2 ≤ 128)

theorem component_range (raw : Byte) : -127 ≤ component raw ∧ component raw ≤ 128 := by
  have := raw.isLt
  unfold component bias
  omega

theorem lastSample_inSampleRange : ∀ (bytes : List Byte) (prev : Int × Int), InSampleRange prev →
    InSampleRange (lastSample prev (samplesOf bytes))
  | [], _, h => h
  | [_], _, h => h
  | i :: q :: rest, _, _ =>
    lastSample_inSampleRange rest (component i, component q) ⟨component_range i, component_range q⟩

/-- PREV's registers have 9 bits, which hold a part of a sample uncut. -/
theorem toInt_ofInt_of_range {x : Int} (h : -127 ≤ x ∧ x ≤ 128) : (BitVec.ofInt 9 x).toInt = x := by
  obtain ⟨hlo, hhi⟩ := h
  exact BitVec.toInt_ofInt_eq_self (by decide) (by norm_num; omega) (by norm_num; omega)

theorem setPrev_prev {s : State} {p : Int × Int} (h : InSampleRange p) : (s.setPrev p).prev = p :=
  Prod.ext (toInt_ofInt_of_range h.1) (toInt_ofInt_of_range h.2)

/-! ## The invariant where the loop runs, and where it does not -/

/-- What the invariant says of a RUNNING state but for STAGE, EOS and the buffers, which the stage operations write. -/
structure Looping (s : State) : Prop where
  st : s.st = .running
  prev : InSampleRange s.prev
  err : s.err = .noError
  planValid : s.planValid = true
  configured : Configured s

theorem Looping.setPrev {s : State} {p : Int × Int} (h : Looping s) (hp : InSampleRange p) : Looping (s.setPrev p) where
  st := h.st
  prev := by rwa [setPrev_prev hp]
  err := h.err
  planValid := h.planValid
  configured := h.configured.congr rfl rfl rfl rfl

/-- The sequencer is at operation `i` and the buffers `b` are ready for it: the invariant of a RUNNING state. -/
structure AtStage (i : Instr) (s : State) (b : Buffers) : Prop where
  looping : Looping s
  issuer : i.issuer = .sequencer
  code : s.stage = opcode i
  eos : s.eos = true ↔ i = .release
  bufs : s.bufs = some b
  shaped : Shaped s b
  written : b.inputWritten i = true

theorem Inv.atStage {s : State} (h : Inv s) (hrun : s.st = .running) : ∃ i b, AtStage i s b := by
  obtain ⟨i, hi, hcode⟩ := stageCode_iff.mp (h.stage_running hrun)
  obtain ⟨b, hb, hshaped, hwritten⟩ := h.has_bufs (.inr hrun)
  refine ⟨i, b, ⟨hrun, ⟨h.prev_re, h.prev_im⟩, ?_, h.plan.mpr (.inr hrun), h.configured (.inr (.inl hrun))⟩, hi, hcode, ?_,
    hb, hshaped, (inputWritten_iff hi hcode).mp hwritten⟩
  · by_contra herr
    exact absurd (h.err_fault.mp herr) (by simp [hrun])
  · rw [h.eos_end, hcode]
    constructor
    · rintro (⟨-, hrelease⟩ | hdone)
      · exact opcode_injective hi rfl hrelease
      · simp [hrun] at hdone
    · rintro rfl
      exact .inl ⟨hrun, rfl⟩

theorem AtStage.inv {i : Instr} {s : State} {b : Buffers} (h : AtStage i s b) : Inv s := by
  obtain ⟨⟨hst, hprev, herr, hplan, hconf⟩, hi, hcode, heos, hb, hshaped, hwritten⟩ := h
  have hrelease : s.stage = opcode .release ↔ i = .release := by
    rw [hcode]
    exact ⟨opcode_injective hi rfl, congrArg opcode⟩
  exact {
    stage_running := fun _ => stageCode_iff.mpr ⟨i, hi, hcode⟩
    stage_zero := fun h => absurd hst h
    prev_re := hprev.1
    prev_im := hprev.2
    prev_seed := by simp [hst]
    err_fault := by simp [hst, herr]
    eos_end := by simp [hst, heos, hrelease]
    plan := by simp [hst, hplan]
    idle_len := by simp [hst]
    sizes_zero := by simp [hst]
    configured := fun _ => hconf
    no_bufs := by simp [hst]
    has_bufs := fun _ => ⟨b, hb, hshaped, (inputWritten_iff hi hcode).mpr hwritten⟩ }

/-- A stage operation that hands over to `next` with `next`'s input written keeps the invariant (44_driver R211). -/
theorem Looping.advance {s : State} {b : Buffers} {next : Instr} (h : Looping s) (hnext : next.issuer = .sequencer)
    (heos : s.eos = true ↔ next = .release) (hshaped : Shaped s b) (hwritten : b.inputWritten next = true) :
    Inv (s.advance b next) :=
  AtStage.inv (i := next) (b := b) {
    looping := ⟨h.st, h.prev, h.err, h.planValid, h.configured.congr rfl rfl rfl rfl⟩
    issuer := hnext
    code := rfl
    eos := heos
    bufs := rfl
    shaped := hshaped.congr rfl rfl rfl
    written := hwritten }

/-- The invariant speaks neither of CMD_ERR nor of the environment. -/
theorem Inv.environment {s : State} (h : Inv s) (cmdErr : Bool) (source : List FillAnswer) (sink : List Byte)
    (sinkReady : Bool) (inputs : List Input) (hostData : Word) (freeCount : Nat) :
    Inv { s with
      cmdErr := cmdErr, source := source, sink := sink, sinkReady := sinkReady, inputs := inputs, hostData := hostData,
      freeCount := freeCount } where
  stage_running := h.stage_running
  stage_zero := h.stage_zero
  prev_re := h.prev_re
  prev_im := h.prev_im
  prev_seed := h.prev_seed
  err_fault := h.err_fault
  eos_end := h.eos_end
  plan := h.plan
  idle_len := h.idle_len
  sizes_zero := h.sizes_zero
  configured hst := (h.configured hst).congr rfl rfl rfl rfl
  no_bufs := h.no_bufs
  has_bufs hst := by
    obtain ⟨b, hb, hshaped, hwritten⟩ := h.has_bufs hst
    exact ⟨b, hb, hshaped.congr rfl rfl rfl, ⟨hwritten.demod_in, hwritten.rfft_in, hwritten.mask_in, hwritten.irfft_in,
      hwritten.decim_in, hwritten.emit_in⟩⟩

theorem Inv.taken {s : State} (h : Inv s) : Inv s.taken := h.environment _ _ _ _ _ _ _

/-- Settles O46: IDLE with nothing configured. -/
theorem resetMeetsInvariant : Obligations.ResetMeetsInvariant where
  stage_running h := by simp [State.reset] at h
  stage_zero _ := rfl
  prev_re := by decide
  prev_im := by decide
  prev_seed _ := ⟨rfl, rfl⟩
  err_fault := by decide
  eos_end := by decide
  plan := by decide
  idle_len _ := rfl
  sizes_zero _ := ⟨rfl, rfl, rfl⟩
  configured h := by simp [State.reset] at h
  no_bufs _ := rfl
  has_bufs h := by simp [State.reset] at h

theorem inv_takeReset (s : State) (sent : Nat) (resumed : List FillAnswer) : Inv (s.takeReset sent resumed) :=
  Inv.environment resetMeetsInvariant _ _ _ _ _ _ _

end Sys2Proof.Machine

/-! Every step keeps the invariant (10_state R38, 60_exceptions R273). -/

namespace Sys2Proof.Machine

open Sys2Proof.Config

/-! ## The host's commands keep the invariant -/

theorem Inv.err_eq {s : State} (h : Inv s) (hst : s.st ≠ .fault) : s.err = .noError := by
  by_contra herr
  exact hst (h.err_fault.mp herr)

theorem Inv.eos_eq {s : State} (h : Inv s) (hrun : s.st ≠ .running) (hdone : s.st ≠ .done) : s.eos = false := by
  rw [← Bool.not_eq_true, h.eos_end]
  simp [hrun, hdone]

/-- `raise E` in IDLE leads to a FAULT that meets the invariant (60_exceptions R272). -/
theorem Inv.raiseError {s : State} {len : BitVec 28} {rest : List Input} {e : ErrCode} (h : Inv s) (hidle : s.st = .idle)
    (herr : e ≠ .noError) : Inv (({ s with inputs := rest, chunkLen := len } : State).raiseError e) where
  stage_running := by simp
  stage_zero _ := rfl
  prev_re := h.prev_re
  prev_im := h.prev_im
  prev_seed _ := h.prev_seed (.inl hidle)
  err_fault := by simp [herr]
  eos_end := by simp [h.eos_eq (by simp [hidle]) (by simp [hidle])]
  plan := by simp
  idle_len := by simp
  sizes_zero _ := ⟨rfl, rfl, rfl⟩
  configured := by simp
  no_bufs _ := rfl
  has_bufs := by simp

/-- The buffers that INIT creates have the lengths of 10_state R31. -/
theorem shaped_freshBuffers {s : State} (h : Configured s) :
    Shaped s (freshBuffers s.chunkLen.toNat (sizeN s.chunkLen.toNat) (noutOf (sizeN s.chunkLen.toNat))) := by
  constructor <;> simp [freshBuffers, h.n_eq, h.nout_eq]

theorem Inv.configure {s : State} {len : BitVec 28} {rest : List Input} (h : Inv s) (hidle : s.st = .idle)
    (hpos : len.toNat ≠ 0) (heven : len.toNat % 2 = 0) :
    Inv (({ s with inputs := rest, chunkLen := len } : State).configure (sizeN len.toNat)) := by
  have hconf := configured_configure (s := { s with inputs := rest, chunkLen := len }) hpos heven
  have hstage : s.stage = 0 := h.stage_zero (by simp [hidle])
  exact {
    stage_running := by simp
    stage_zero := fun _ => hstage
    prev_re := h.prev_re
    prev_im := h.prev_im
    prev_seed := fun _ => h.prev_seed (.inl hidle)
    err_fault := by simp [h.err_eq (by simp [hidle])]
    eos_end := by simp [h.eos_eq (by simp [hidle]) (by simp [hidle])]
    plan := by simp
    idle_len := by simp
    sizes_zero := by simp
    configured := fun _ => hconf
    no_bufs := by simp
    has_bufs := fun _ => ⟨_, rfl, shaped_freshBuffers hconf, inputWritten_of_stage_zero _ hstage⟩ }

theorem Inv.startRun {s : State} {rest : List Input} (h : Inv s) (hready : s.st = .ready) :
    Inv { s with inputs := rest, st := .running, stage := opcode .fetch } := by
  obtain ⟨b, hb, hshaped, -⟩ := h.has_bufs (.inl hready)
  exact AtStage.inv (i := .fetch) (b := b) {
    looping := ⟨rfl, ⟨h.prev_re, h.prev_im⟩, h.err_eq (by simp [hready]), h.plan.mpr (.inl hready),
      (h.configured (.inl hready)).congr rfl rfl rfl rfl⟩
    issuer := rfl
    code := rfl
    eos := by simp [h.eos_eq (by simp [hready]) (by simp [hready])]
    bufs := hb
    shaped := hshaped.congr rfl rfl rfl
    written := rfl }

/-! ## What a stage operation answers on written input -/

theorem exec_demod_of_written {s : State} {b : Buffers} {bytes : List Byte} (hb : s.bufs = some b)
    (hiq : b.iq = bytes.map some) (hlen : bytes.length = 2 * s.nReg.toNat) (hph : b.ph.length = s.nReg.toNat) :
    exec .demod s = .next ((s.setPrev (lastSample s.prev (samplesOf bytes))).advance
      { b with ph := (phases numOps s.prev (samplesOf bytes)).map some } .rfft) := by
  have hread := collect_loadSample s.nReg.toNat bytes hlen
  have hwrite := storeAll_full .ph b.ph (phases numOps s.prev (samplesOf bytes))
    (by rw [phases_length, samplesOf_length _ _ hlen, hph])
  rw [exec_demod, demodWith, withBuffers_some _ hb]
  simp only [hiq, hread, hwrite, outcome_ok]

theorem exec_rfft_of_written {s : State} {b : Buffers} {xs : List Code} (hp : s.planValid = true) (hb : s.bufs = some b)
    (hph : b.ph = xs.map some) (hlen : xs.length = s.nReg.toNat) (hspec : b.spec.length = specLen s.nReg.toNat) :
    exec .rfft s = .next (s.advance { b with spec := (rfftList numOps s.nReg.toNat xs).map some } .mask) := by
  have hread := hlen ▸ collect_loadElem .ph xs
  have hwrite := storeAll_full .spec b.spec (rfftList numOps s.nReg.toNat xs) (by rw [rfftList_length, hspec])
  rw [exec_rfft, rfftWith, withPlans_true _ hp, withBuffers_some _ hb]
  simp only [hph, hread, hwrite, outcome_ok]

/-- With CUTOFF derived from N, every bin that MASK reads lies in SPEC (42_lpf R165). -/
theorem loadBin_map_some (o : NumOps Code) {zs : List (Code × Code)} {N : Nat} (hlen : zs.length = specLen N) (k : Nat) :
    loadBin o (zs.map some) N (cutoffOf N) k = .ok (maskBin o N (cutoffOf N) (fun i => zs.getD i o.czero) k) := by
  have hbound := binSource_bound N k
  rw [loadBin, maskBin]
  cases hsrc : binSource N (cutoffOf N) k with
  | zero => rfl
  | pass i =>
    rw [hsrc] at hbound
    exact loadElem_map_some_getD .spec zs o.czero i (hlen ▸ hbound)
  | mirror i =>
    rw [hsrc] at hbound
    simp only [loadElem_map_some_getD .spec zs o.czero i (hlen ▸ hbound)]

theorem exec_mask_of_written {s : State} {b : Buffers} {zs : List (Code × Code)} (hb : s.bufs = some b)
    (hspec : b.spec = zs.map some) (hlen : zs.length = specLen s.nReg.toNat)
    (hcut : s.cutoffReg.toNat = cutoffOf s.nReg.toNat) (hfspec : b.fspec.length = s.nReg.toNat) :
    exec .mask s = .next (s.advance
      { b with fspec := (maskList numOps s.nReg.toNat (cutoffOf s.nReg.toNat) zs).map some } .irfft) := by
  have hread : collect (loadBin numOps (zs.map some) s.nReg.toNat (cutoffOf s.nReg.toNat)) (List.range s.nReg.toNat) =
      .ok (maskList numOps s.nReg.toNat (cutoffOf s.nReg.toNat) zs) :=
    collect_eq_map fun k _ => loadBin_map_some numOps hlen k
  have hwrite := storeAll_full .fspec b.fspec (maskList numOps s.nReg.toNat (cutoffOf s.nReg.toNat) zs)
    (by rw [maskList_length, hfspec])
  rw [exec_mask, maskWith, withBuffers_some _ hb]
  simp only [hspec, hcut, hread, hwrite, outcome_ok]

theorem exec_irfft_of_written {s : State} {b : Buffers} {zs : List (Code × Code)} (hp : s.planValid = true)
    (hb : s.bufs = some b) (hfspec : b.fspec = zs.map some) (hlen : zs.length = s.nReg.toNat)
    (hfsig : b.fsig.length = s.nReg.toNat) :
    exec .irfft s = .next (s.advance { b with fsig := (irfftList numOps s.nReg.toNat zs).map some } .decim) := by
  have hread := hlen ▸ collect_loadElem .fspec zs
  have hwrite := storeAll_full .fsig b.fsig (irfftList numOps s.nReg.toNat zs) (by rw [irfftList_length, hfsig])
  rw [exec_irfft, irfftWith, withPlans_true _ hp, withBuffers_some _ hb]
  simp only [hfspec, hread, hwrite, outcome_ok]

theorem exec_decim_of_written {s : State} {b : Buffers} {ys : List Code} (hb : s.bufs = some b)
    (hfsig : b.fsig = ys.map some) (hlen : ys.length = s.nReg.toNat) (hpos : 0 < s.nReg.toNat)
    (hnout : s.noutReg.toNat = noutOf s.nReg.toNat) (hobuf : b.obuf.length = s.noutReg.toNat) :
    exec .decim s = .next (s.advance
      { b with obuf := (decimList numOps s.nReg.toNat s.noutReg.toNat ys).map some } .emit) := by
  have hread : collect (loadOut numOps (ys.map some) s.nReg.toNat) (List.range s.noutReg.toNat) =
      .ok (decimList numOps s.nReg.toNat s.noutReg.toNat ys) := by
    refine collect_eq_map fun m hm => ?_
    have hindex : decimIndex m < ys.length :=
      hlen ▸ decimIndex_bound _ m hpos (hnout ▸ List.mem_range.mp hm)
    simp only [loadOut, loadElem_map_some_getD .fsig ys numOps.zero _ hindex]
  have hwrite := storeAll_full .obuf b.obuf (decimList numOps s.nReg.toNat s.noutReg.toNat ys)
    (by rw [decimList_length, hobuf])
  rw [exec_decim, decimWith, withBuffers_some _ hb]
  simp only [hfsig, hread, hwrite, outcome_ok]

theorem exec_emit_of_written {s : State} {b : Buffers} {out : List Sample} (hk : s.sinkReady = true) (hb : s.bufs = some b)
    (hobuf : b.obuf = out.map some) (hlen : out.length = s.noutReg.toNat) :
    exec .emit s = .next ((s.sinkAppend (serialise out)).advance b .fetch) := by
  have hread := hlen ▸ collect_loadElem .obuf out
  rw [exec_emit, emitChunk, if_pos hk, withBuffers_some _ hb]
  simp only [hobuf, hread, outcome_ok]

theorem exec_emit_of_waiting {s : State} (hk : s.sinkReady = false) : exec .emit s = .next s := by
  rw [exec_emit, emitChunk, if_neg (by simp [hk]), outcome_ok]

theorem exec_fetch_of_waiting {s : State} (hsrc : s.source = []) : exec .fetch s = .next s := by
  rw [exec_fetch, fetchChunk, hsrc]
  rfl

theorem exec_fetch_of_chunk {s : State} {b : Buffers} {a : FillAnswer} {rest : List FillAnswer} {bytes : List Byte}
    (hsrc : s.source = a :: rest) (hb : s.bufs = some b) (hfill : fillResult s.chunkLen.toNat a = some bytes)
    (hlen : bytes.length = b.iq.length) :
    exec .fetch s = .next (({ s with source := rest } : State).advance { b with iq := bytes.map some } .demod) := by
  rw [exec_fetch, fetchChunk, hsrc]
  simp only [withBuffers_some _ hb, hfill, storeAll_full .iqbuf b.iq bytes hlen, outcome_ok]

theorem exec_fetch_of_failure {s : State} {b : Buffers} {a : FillAnswer} {rest : List FillAnswer}
    (hsrc : s.source = a :: rest) (hb : s.bufs = some b) (hfill : fillResult s.chunkLen.toNat a = none) :
    exec .fetch s = .next (({ s with source := rest, eos := true, freeCount := s.freeCount + 1 } : State).advance
      { b with iq := staleBuffer s.freeCount b.iq } .release) := by
  rw [exec_fetch, fetchChunk, hsrc]
  simp only [withBuffers_some _ hb, hfill, outcome_ok]

/-- An accepted fill holds exactly `L` bytes (20_memory R66). -/
theorem length_of_fillResult {len : Nat} {a : FillAnswer} {bytes : List Byte} (h : fillResult len a = some bytes) :
    bytes.length = len := by
  cases a with
  | deviceError => cases h
  | obtained bs =>
    simp only [fillResult] at h
    split at h
    · cases h; assumption
    · cases h

/-! ## The stage operations keep the invariant -/

theorem Configured.cutoffReg_eq {s : State} (h : Configured s) : s.cutoffReg.toNat = cutoffOf s.nReg.toNat := by
  rw [h.cutoff_eq, h.n_eq]

theorem Configured.noutReg_eq {s : State} (h : Configured s) : s.noutReg.toNat = noutOf s.nReg.toNat := by
  rw [h.nout_eq, h.n_eq]

/-- A written buffer of known length, as the values it holds. -/
theorem exists_values {α : Type} {buf : List (Option α)} {n : Nat} (h : allWritten buf = true) (hlen : buf.length = n) :
    ∃ xs : List α, buf = xs.map some ∧ xs.length = n := by
  obtain ⟨xs, rfl⟩ := exists_values_of_written h
  exact ⟨xs, rfl, by simpa using hlen⟩

section
variable {s : State} {b : Buffers}

/-- The end of a stage operation that writes neither PREV nor EOS. -/
theorem AtStage.advance {i next : Instr} {b' : Buffers} (h : AtStage i s b) (hi : i ≠ .release)
    (hnext : next.issuer = .sequencer) (hne : next ≠ .release) (hshaped : Shaped s b')
    (hwritten : b'.inputWritten next = true) : Inv (s.advance b' next) :=
  h.looping.advance hnext (by simp [h.eos, hi, hne]) hshaped hwritten

theorem AtStage.demod_keeps (h : AtStage .demod s b) : ∃ t, exec .demod s = .next t ∧ Inv t := by
  obtain ⟨bytes, hiq, hlen⟩ := exists_values h.written h.shaped.iq_len
  obtain ⟨hL, -⟩ := h.looping.configured.derived_sizes
  have hN : bytes.length = 2 * s.nReg.toNat := hlen.trans hL.symm
  refine ⟨_, exec_demod_of_written h.bufs hiq hN h.shaped.ph_len, ?_⟩
  have hlooping := h.looping.setPrev (lastSample_inSampleRange bytes s.prev h.looping.prev)
  refine hlooping.advance rfl (by simp [h.eos]) ?_ (allWritten_map_some _)
  have hph : (phases numOps s.prev (samplesOf bytes)).length = s.nReg.toNat := by
    rw [phases_length, samplesOf_length _ _ hN]
  exact { h.shaped.congr rfl rfl rfl with ph_len := by simpa using hph }

theorem AtStage.rfft_keeps (h : AtStage .rfft s b) : ∃ t, exec .rfft s = .next t ∧ Inv t := by
  obtain ⟨xs, hph, hlen⟩ := exists_values h.written h.shaped.ph_len
  refine ⟨_, exec_rfft_of_written h.looping.planValid h.bufs hph hlen h.shaped.spec_len, ?_⟩
  exact h.advance (by decide) rfl (by decide) { h.shaped with spec_len := by simp } (allWritten_map_some _)

theorem AtStage.mask_keeps (h : AtStage .mask s b) : ∃ t, exec .mask s = .next t ∧ Inv t := by
  obtain ⟨zs, hspec, hlen⟩ := exists_values h.written h.shaped.spec_len
  refine ⟨_, exec_mask_of_written h.bufs hspec hlen h.looping.configured.cutoffReg_eq h.shaped.fspec_len, ?_⟩
  exact h.advance (by decide) rfl (by decide) { h.shaped with fspec_len := by simp } (allWritten_map_some _)

theorem AtStage.irfft_keeps (h : AtStage .irfft s b) : ∃ t, exec .irfft s = .next t ∧ Inv t := by
  obtain ⟨zs, hfspec, hlen⟩ := exists_values h.written h.shaped.fspec_len
  refine ⟨_, exec_irfft_of_written h.looping.planValid h.bufs hfspec hlen h.shaped.fsig_len, ?_⟩
  exact h.advance (by decide) rfl (by decide) { h.shaped with fsig_len := by simp } (allWritten_map_some _)

theorem AtStage.decim_keeps (h : AtStage .decim s b) : ∃ t, exec .decim s = .next t ∧ Inv t := by
  obtain ⟨ys, hfsig, hlen⟩ := exists_values h.written h.shaped.fsig_len
  obtain ⟨-, hpos, -⟩ := h.looping.configured.derived_sizes
  refine ⟨_, exec_decim_of_written h.bufs hfsig hlen hpos h.looping.configured.noutReg_eq h.shaped.obuf_len, ?_⟩
  exact h.advance (by decide) rfl (by decide) { h.shaped with obuf_len := by simp } (allWritten_map_some _)

theorem AtStage.emit_keeps (h : AtStage .emit s b) : ∃ t, exec .emit s = .next t ∧ Inv t := by
  cases hk : s.sinkReady with
  | false => exact ⟨s, exec_emit_of_waiting hk, h.inv⟩
  | true =>
    obtain ⟨out, hobuf, hlen⟩ := exists_values h.written h.shaped.obuf_len
    refine ⟨_, exec_emit_of_written hk h.bufs hobuf hlen, ?_⟩
    exact (h.advance (next := .fetch) (by decide) rfl (by decide) h.shaped rfl).environment _ _ _ _ _ _ _

theorem AtStage.fetch_keeps (h : AtStage .fetch s b) : ∃ t, exec .fetch s = .next t ∧ Inv t := by
  cases hsrc : s.source with
  | nil => exact ⟨s, exec_fetch_of_waiting hsrc, h.inv⟩
  | cons a rest =>
    cases hfill : fillResult s.chunkLen.toNat a with
    | some bytes =>
      have hlen : bytes.length = s.chunkLen.toNat := length_of_fillResult hfill
      refine ⟨_, exec_fetch_of_chunk hsrc h.bufs hfill (hlen.trans h.shaped.iq_len.symm), ?_⟩
      have hshaped : Shaped s { b with iq := bytes.map some } := { h.shaped with iq_len := by simpa using hlen }
      exact (h.advance (next := .demod) (by decide) rfl (by decide) hshaped
        (allWritten_map_some _)).environment _ _ _ _ _ _ _
    | none =>
      refine ⟨_, exec_fetch_of_failure hsrc h.bufs hfill, ?_⟩
      have hlooping : Looping { s with source := rest, eos := true, freeCount := s.freeCount + 1 } :=
        ⟨h.looping.st, h.looping.prev, h.looping.err, h.looping.planValid, h.looping.configured.congr rfl rfl rfl rfl⟩
      have hlen : (staleBuffer s.freeCount b.iq).length = s.chunkLen.toNat := by
        simp [staleBuffer, h.shaped.iq_len]
      exact hlooping.advance rfl (by simp) { h.shaped.congr rfl rfl rfl with iq_len := hlen } rfl

/-- RELEASE, reached only after a failed fill, ends in DONE with EOS set (44_driver R213, R214). -/
theorem AtStage.release_keeps (h : AtStage .release s b) : ∃ t, exec .release s = .next t ∧ Inv t := by
  refine ⟨releaseAll s, rfl, ?_⟩
  have hconf : Configured (releaseAll s) := h.looping.configured.congr rfl rfl rfl rfl
  exact {
    stage_running := by simp [releaseAll]
    stage_zero := fun _ => rfl
    prev_re := h.looping.prev.1
    prev_im := h.looping.prev.2
    prev_seed := by simp [releaseAll]
    err_fault := by simp [releaseAll, h.looping.err]
    eos_end := by simp [releaseAll, h.eos]
    plan := by simp [releaseAll]
    idle_len := by simp [releaseAll]
    sizes_zero := by simp [releaseAll]
    configured := fun _ => hconf
    no_bufs := fun _ => rfl
    has_bufs := by simp [releaseAll] }

theorem AtStage.exec_keeps {i : Instr} (h : AtStage i s b) : ∃ t, exec i s = .next t ∧ Inv t := by
  cases i with
  | init | run => cases h.issuer
  | fetch => exact h.fetch_keeps
  | demod => exact h.demod_keeps
  | rfft => exact h.rfft_keeps
  | mask => exact h.mask_keeps
  | irfft => exact h.irfft_keeps
  | decim => exact h.decim_keeps
  | emit => exact h.emit_keeps
  | release => exact h.release_keeps

end

/-! ## The step keeps the invariant -/

/-- In RUNNING the sequencer's turn answers, its operation's input being there. -/
theorem Inv.stage_step {s : State} (h : Inv s) (heng : engineNext s = true) (hrun : s.st = .running) :
    ∃ t, step s = .next t ∧ Inv t := by
  obtain ⟨i, b, hat⟩ := h.taken.atStage hrun
  rw [step_of_stage heng hrun hat.issuer hat.code]
  exact hat.exec_keeps

/-- Settles O47: the sequencer's turn in RUNNING finds its input, and every other step always answers. -/
theorem stepKeepsInvariant : Obligations.StepKeepsInvariant := by
  intro s h
  by_cases hstage : engineNext s = true ∧ s.st = .running
  · exact h.stage_step hstage.1 hstage.2
  · obtain ⟨t, hstep⟩ := step_answers hstage
    refine ⟨t, hstep, ?_⟩
    cases move_of_step hstep with
    | environment => exact h.environment _ _ _ _ _ _ _
    | reset => exact inv_takeReset _ _ _
    | initError len rest e hidle herr => exact h.raiseError hidle herr
    | initOk len rest hidle hpos heven => exact h.configure hidle hpos heven
    | run rest hready => exact h.startRun hready
    | stage i t heng hrun => exact absurd ⟨heng, hrun⟩ hstage

end Sys2Proof.Machine

/-! The ports: waiting, and the order of what the sink receives (20_memory R67 to R69). -/

namespace Sys2Proof.Machine

open Sys2Proof.Config

/-! ## What the sink receives -/

/-- A stage operation other than EMIT has no access to OUT (20_memory R69). -/
theorem exec_keeps_sink {i : Instr} {s t : State} (hi : i.issuer = .sequencer) (hne : i ≠ .emit)
    (h : exec i s = .next t) : t.sink = s.sink := by
  cases i with
  | init | run => cases hi
  | emit => exact absurd rfl hne
  | fetch => obtain rfl | ⟨a, rest, b, bytes, iq, -, -, -, -, rfl⟩ | ⟨a, rest, b, -, -, -, rfl⟩ := fetch_next h <;> rfl
  | demod => obtain ⟨b, samples, ph, -, -, -, rfl⟩ := demod_next h; rfl
  | rfft => obtain ⟨b, xs, ys, -, -, -, -, rfl⟩ := rfft_next h; rfl
  | mask => obtain ⟨b, xs, ys, -, -, -, rfl⟩ := mask_next h; rfl
  | irfft => obtain ⟨b, xs, ys, -, -, -, -, rfl⟩ := irfft_next h; rfl
  | decim => obtain ⟨b, xs, ys, -, -, -, rfl⟩ := decim_next h; rfl
  | release =>
    obtain rfl : releaseAll s = t := by simpa [exec, execRelease] using h
    rfl

theorem exec_emit_appends {s t : State} (h : exec .emit s = .next t) : ∃ bytes, t.sink = s.sink ++ bytes := by
  obtain rfl | ⟨b, out, -, -, rfl⟩ := emit_next h
  · exact ⟨[], (List.append_nil _).symm⟩
  · exact ⟨serialise out, rfl⟩

/-- Reset finds bytes under way to the sink only where it interrupts an EMIT (70_reset R300). -/
theorem emit_of_interruptedBytes_ne_nil {s : State} {sent : Nat} (h : interruptedBytes s sent ≠ []) :
    s.st = .running ∧ s.stage = opcode .emit := by
  by_contra hne
  exact h (if_neg hne)

/-- What holds of a step that leaves the sink alone, as `Obligations.SinkIsAppendOnly` asks it. -/
theorem appends_nothing {s t : State} {P : Prop} (h : t.sink = s.sink) :
    ∃ bytes, t.sink = s.sink ++ bytes ∧ (bytes ≠ [] → P) :=
  ⟨[], by rw [h, List.append_nil], fun hne => absurd rfl hne⟩

/-- Settles O52: only EMIT, and a reset that interrupts it, have the sink among their targets, and both append. -/
theorem sinkIsAppendOnly : Obligations.SinkIsAppendOnly := by
  intro s t hstep
  cases move_of_step hstep with
  | environment | initError | initOk | run => exact appends_nothing rfl
  | reset sent resumed rest => exact ⟨interruptedBytes _ sent, rfl, fun hne => emit_of_interruptedBytes_ne_nil hne⟩
  | stage i t heng hrun hcode hi hexec =>
    by_cases hemit : i = .emit
    · subst hemit
      obtain ⟨bytes, hsink⟩ := exec_emit_appends hexec
      exact ⟨bytes, hsink, fun _ => ⟨hrun, hcode⟩⟩
    · have hkept : t.sink = s.taken.sink := exec_keeps_sink hi hemit hexec
      exact appends_nothing hkept

/-! ## Waiting for a port -/

/-- Settles O43: an open fill and a sink that does not accept are each the waiting branch of their operation. -/
theorem waitingKeepsAllState : Obligations.WaitingKeepsAllState :=
  ⟨fun _ => exec_fetch_of_waiting, fun _ => exec_emit_of_waiting⟩

end Sys2Proof.Machine

/-! The two encodings and their decoders (30_encoding R94 to R105), and the accesses that the CTL port refuses (60_exceptions R265). -/

namespace Sys2Proof.Machine

open Sys2Proof.Config

/-! ## The two fields of a command word -/

@[simp] theorem opField_append (op : BitVec 4) (arg : BitVec 28) : opField (op ++ arg) = op :=
  BitVec.extractLsb'_append_eq_left

@[simp] theorem argField_append (op : BitVec 4) (arg : BitVec 28) : argField (op ++ arg) = arg :=
  BitVec.extractLsb'_append_eq_right

/-- OP and ARG are all of a command word: format H has no other bits (30_encoding R94). -/
theorem opField_append_argField (w : Word) : opField w ++ argField w = w :=
  BitVec.extractLsb'_append_extractLsb'

/-! ## The legal command words -/

/-- A command word stands for an operation only with INIT's code, and then with every ARG, or with RUN's and ARG 0 (30_encoding R96,
R97, R102). -/
theorem decodeCommand_eq_ok_iff {w : Word} {i : Instr} :
    decodeCommand w = .ok i ↔
      (opField w = 1#4 ∧ i = .init (argField w)) ∨ (opField w = 2#4 ∧ argField w = 0 ∧ i = .run) := by
  rw [← BitVec.toNat_inj, ← BitVec.toNat_inj]
  unfold decodeCommand
  split
  case h_1 hop => simp [hop, eq_comm]
  case h_2 hop => by_cases harg : argField w = 0#28 <;> simp [hop, harg, eq_comm (b := i)]
  case h_11 hinit hrun _ _ _ _ _ _ _ _ =>
    have hother : (opField w).toNat ≠ 1 ∧ (opField w).toNat ≠ 2 := ⟨hinit, hrun⟩
    simp [hother]
  case h_3 hop | h_4 hop | h_5 hop | h_6 hop | h_7 hop | h_8 hop | h_9 hop | h_10 hop => simp [hop]

/-- Every other command word is refused (30_encoding R102). -/
theorem decodeCommand_refused {w : Word} (hinit : (opField w).toNat ≠ 1)
    (hrun : (opField w).toNat = 2 → argField w ≠ 0) : ∃ e, decodeCommand w = .error e := by
  cases hdec : decodeCommand w with
  | error e => exact ⟨e, rfl⟩
  | ok i =>
    obtain ⟨hop, -⟩ | ⟨hop, harg, -⟩ := decodeCommand_eq_ok_iff.mp hdec
    · exact absurd (congrArg BitVec.toNat hop) hinit
    · exact absurd harg (hrun (congrArg BitVec.toNat hop))

/-! ## Encoding and decoding -/

/-- The sequencer's operations have format S, the bare code (30_encoding R98). -/
theorem encode_of_sequencer {i : Instr} (hi : i.issuer = .sequencer) : encode i = .stage (opcode i) := by
  cases i with
  | init | run => cases hi
  | fetch | demod | rfft | mask | irfft | decim | emit | release => rfl

theorem decode_encode_of_sequencer {i : Instr} (hi : i.issuer = .sequencer) : decode (encode i) = .ok i := by
  rw [encode_of_sequencer hi]
  exact decodeStage_opcode hi

theorem decode_encode (i : Instr) : decode (encode i) = .ok i := by
  cases i with
  | init len => exact decodeCommand_eq_ok_iff.mpr (.inl ⟨opField_append _ _, by rw [argField_append]⟩)
  | run => exact decodeCommand_eq_ok_iff.mpr (.inr ⟨opField_append _ _, argField_append _ _, rfl⟩)
  | fetch | demod | rfft | mask | irfft | decim | emit | release => exact decode_encode_of_sequencer rfl

theorem encode_of_decode {e : Encoded} {i : Instr} (h : decode e = .ok i) : encode i = e := by
  cases e with
  | command w =>
    rw [← opField_append_argField w]
    obtain ⟨hop, rfl⟩ | ⟨hop, harg, rfl⟩ := decodeCommand_eq_ok_iff.mp h
    · rw [hop]; rfl
    · rw [hop, harg]; rfl
  | stage c =>
    obtain ⟨rfl, hi⟩ := decodeStage_ok h
    exact encode_of_sequencer hi

/-- Settles O1: decoding undoes encoding, and what decodes is the encoding of what it decodes to. -/
theorem decodeIffEncode : Obligations.DecodeIffEncode :=
  fun _ i => ⟨encode_of_decode, fun h => h ▸ decode_encode i⟩

/-- Settles O2: each listed word is the encoding of its operation. -/
theorem decodeListedWords : Obligations.DecodeListedWords :=
  ⟨decode_encode (.init 2048#28), decode_encode .run, decode_encode .fetch, decode_encode .demod, decode_encode .rfft,
    decode_encode .mask, decode_encode .irfft, decode_encode .decim, decode_encode .emit, decode_encode .release⟩

/-! ## Refused host writes -/

/-- A host write is refused where CMD takes no such word, and at every register but CMD (10_state R26, 60_exceptions R265). -/
theorem step_of_refused_write {s : State} {reg : Nat} {w : Word} {rest : List Input} (hin : s.inputs = .ctlWrite reg w :: rest)
    (hrefused : reg = 0 → ∃ e, decodeCommand w = .error e) :
    step s = .next ({ s with inputs := rest } : State).refuseAccess := by
  rw [step, nextTurn_cons hin, inputTurn, writeTurn]
  split_ifs with hreg
  · obtain ⟨e, he⟩ := hrefused hreg
    rw [he]
  · rfl

/-- Settles O6: at register 0 each listed class of words has neither INIT's code nor RUN's with ARG 0. -/
theorem refusedHostWrites : Obligations.RefusedHostWrites := by
  intro s reg w rest hin hclass
  refine step_of_refused_write hin fun hreg => ?_
  obtain ⟨-, hreserved⟩ | ⟨-, hstage, -⟩ | ⟨-, hop, harg⟩ | hne := hclass
  · exact decodeCommand_refused (by omega) (by omega)
  · exact decodeCommand_refused (by omega) (by omega)
  · exact decodeCommand_refused (by omega) fun _ => harg
  · exact absurd hreg hne

end Sys2Proof.Machine

/-! INIT in each of its branches, and the host commands in the states that refuse them (40_init). -/

namespace Sys2Proof.Machine

open Sys2Proof.Config

/-! ## What the host commands execute -/

theorem exec_init (len : BitVec 28) (s : State) : exec (.init len) s = .next (initWith capacity len s) := rfl
theorem exec_run (s : State) : exec .run s = .next (startRun s) := rfl

/-! ## The branches of INIT and RUN, in the order of their checks -/

theorem initWith_of_not_idle {cap : Capacity} {len : BitVec 28} {s : State} (hst : s.st ≠ .idle) :
    initWith cap len s = s.refuseAccess :=
  if_neg hst

/-- The check of `L` comes before that of the capacity (60_exceptions R269). -/
theorem initWith_of_bad_length {cap : Capacity} {len : BitVec 28} {s : State} (hidle : s.st = .idle)
    (hlen : len.toNat = 0 ∨ len.toNat % 2 = 1) :
    initWith cap len s = ({ s with chunkLen := len } : State).raiseError .cfg := by
  rw [initWith, if_pos hidle, if_pos hlen]

/-- With `L` even and positive, the capacity alone decides (40_init R122). -/
theorem initWith_of_even {cap : Capacity} {len : BitVec 28} {s : State} (hidle : s.st = .idle)
    (hpos : len.toNat ≠ 0) (heven : len.toNat % 2 = 0) :
    initWith cap len s =
      if cap.admits (sizeN len.toNat) then ({ s with chunkLen := len } : State).configure (sizeN len.toNat)
      else ({ s with chunkLen := len } : State).raiseError .res := by
  have hlen : ¬(len.toNat = 0 ∨ len.toNat % 2 = 1) := by omega
  rw [initWith, if_pos hidle, if_neg hlen]

theorem startRun_of_not_ready {s : State} (hst : s.st ≠ .ready) : startRun s = s.refuseAccess :=
  if_neg hst

/-! ## INIT by capacity, and the refused and erroneous commands -/

/-- Settles O13: each branch of the capacity check writes what `configure` and `raiseError` write. -/
theorem initByCapacity : Obligations.InitByCapacity := by
  intro cap len s hidle hpos heven
  refine ⟨?_, exec_init len s⟩
  rw [initWith_of_even hidle hpos heven]
  exact if_congr admits_iff rfl rfl

/-- Settles O11: outside their own state both commands are refused accesses. -/
theorem commandsRefusedInOtherStates : Obligations.CommandsRefusedInOtherStates := by
  constructor
  · intro len s hst
    rw [exec_init, initWith_of_not_idle hst, State.refuseAccess]
  · intro s hst
    rw [exec_run, startRun_of_not_ready hst, State.refuseAccess]

/-- Settles O12: a bad `L` raises E_CFG before the machine's own capacity is asked. -/
theorem initRaisesConfigError : Obligations.InitRaisesConfigError := by
  intro len s hidle hlen
  rw [exec_init, initWith_of_bad_length hidle hlen, State.raiseError]

end Sys2Proof.Machine

/-! DEMOD: what the samples and the phase values of a chunk are by index and across a cut of the stream, the degenerate product, and
what the operation writes (41_demod). -/

namespace Sys2Proof.Machine

open Sys2Proof.Config

/-! ## The phase values and the carried sample -/

/-- With PREV put before the samples, index `n` holds the sample that goes before sample `n` (41_demod R140). -/
theorem phases_getElem? {V : Type} (o : NumOps V) {s p : Int × Int} : ∀ (n : Nat) (prev : Int × Int) (samples : List (Int × Int)),
    samples[n]? = some s → (prev :: samples)[n]? = some p →
    (phases o prev samples)[n]? = some (o.arg2 (productIm s.1 s.2 p.1 p.2) (productRe s.1 s.2 p.1 p.2))
  | _, _, [], hs, _ => by simp at hs
  | 0, prev, t :: rest, hs, hp => by
    obtain rfl : t = s := by simpa using hs
    obtain rfl : prev = p := by simpa using hp
    rfl
  | n + 1, _, t :: rest, hs, hp => phases_getElem? o n t rest (by simpa using hs) (by simpa using hp)

/-- The carried sample is the one that goes before the first sample of the next chunk (41_demod R145). -/
theorem getElem?_length_eq_lastSample : ∀ (prev : Int × Int) (samples : List (Int × Int)),
    (prev :: samples)[samples.length]? = some (lastSample prev samples)
  | _, [] => rfl
  | _, s :: rest => getElem?_length_eq_lastSample s rest

theorem phases_append {V : Type} (o : NumOps V) (ys : List (Int × Int)) : ∀ (prev : Int × Int) (xs : List (Int × Int)),
    phases o prev (xs ++ ys) = phases o prev xs ++ phases o (lastSample prev xs) ys
  | _, [] => rfl
  | _, s :: rest => congrArg (_ :: ·) (phases_append o ys s rest)

theorem lastSample_append (ys : List (Int × Int)) : ∀ (prev : Int × Int) (xs : List (Int × Int)),
    lastSample prev (xs ++ ys) = lastSample (lastSample prev xs) ys
  | _, [] => rfl
  | _, s :: rest => lastSample_append ys s rest

/-- A cut between two samples cuts no sample in two (41_demod R146). -/
theorem samplesOf_append (ys : List Byte) : ∀ xs : List Byte, xs.length % 2 = 0 →
    samplesOf (xs ++ ys) = samplesOf xs ++ samplesOf ys
  | [], _ => rfl
  | [_], h => by simp at h
  | i :: q :: rest, h => congrArg ((component i, component q) :: ·)
    (samplesOf_append ys rest (by simp only [List.length_cons] at h; omega))

/-! ## The product -/

/-- Moduli multiply (41_demod R142). -/
theorem product_normSq (a b c d : Int) :
    productRe a b c d * productRe a b c d + productIm a b c d * productIm a b c d = (a * a + b * b) * (c * c + d * d) := by
  unfold productRe productIm
  ring

/-- The product of two samples is zero exactly when one of them is (41_demod R147). -/
theorem product_eq_zero_iff {a b c d : Int} :
    (productRe a b c d = 0 ∧ productIm a b c d = 0) ↔ ((a = 0 ∧ b = 0) ∨ (c = 0 ∧ d = 0)) := by
  rw [← mul_self_add_mul_self_eq_zero, product_normSq, mul_eq_zero, mul_self_add_mul_self_eq_zero,
    mul_self_add_mul_self_eq_zero]

/-! ## DEMOD -/

/-- Settles O19: with every byte there, DEMOD is the two whole-chunk functions. -/
theorem demodWritesPhases : Obligations.DemodWritesPhases := fun _ _ _ hb hiq hlen hph =>
  exec_demod_of_written hb hiq hlen hph

/-- Settles O20: by cases on whether the sample before is PREV or another one of the chunk. -/
theorem phaseValueByIndex : Obligations.PhaseValueByIndex := by
  intro V o c d bytes N hlen
  refine ⟨by rw [phases_length, samplesOf_length N bytes hlen], fun n hn => ?_⟩
  have hsample := samplesOf_getElem? n bytes (by omega)
  cases n with
  | zero => exact phases_getElem? o 0 (c, d) (samplesOf bytes) hsample rfl
  | succ m =>
    have hbefore := samplesOf_getElem? m bytes (by omega)
    exact phases_getElem? o (m + 1) (c, d) (samplesOf bytes) hsample hbefore

/-- Settles O21: the sample carried on is sample `N - 1`, whose parts fit the 9 bits of PREV. -/
theorem demodCarriesLastSample : Obligations.DemodCarriesLastSample := by
  intro s b bytes hb hiq hlen hph hN
  refine ⟨_, exec_demod_of_written hb hiq hlen hph, ?_⟩
  obtain ⟨m, hm⟩ := Nat.exists_eq_add_of_le' hN
  have hlast : lastSample s.prev (samplesOf bytes) =
      (component (bytes.getD (bytes.length - 2) 0), component (bytes.getD (bytes.length - 1) 0)) := by
    have hcarried := getElem?_length_eq_lastSample s.prev (samplesOf bytes)
    have hsample := samplesOf_getElem? m bytes (by omega)
    rw [samplesOf_length (m + 1) bytes (by omega), List.getElem?_cons_succ, hsample] at hcarried
    rw [show bytes.length - 2 = 2 * m by omega, show bytes.length - 1 = 2 * m + 1 by omega]
    exact (Option.some.inj hcarried).symm
  rw [hlast]
  exact ⟨toInt_ofInt_of_range (component_range _), toInt_ofInt_of_range (component_range _)⟩

/-- Settles O22: an even cut falls between two samples, and there the loop goes on from the sample before. -/
theorem phasesContinuousAcrossChunks : Obligations.PhasesContinuousAcrossChunks := by
  intro V o prev x y heven
  rw [samplesOf_append y x heven]
  exact ⟨phases_append o _ prev _, lastSample_append _ prev _⟩

/-- Settles O23: the product of the moduli is the modulus of the product, and NUM's angle of `(0, 0)` is its zero (N-ARG0). -/
theorem degeneratePhaseIsZero : Obligations.DegeneratePhaseIsZero := by
  intro a b c d
  refine ⟨product_eq_zero_iff, fun hzero V num => ?_⟩
  obtain ⟨hre, him⟩ := product_eq_zero_iff.mpr hzero
  simp only [phases, hre, him, num.arg2_zero]

end Sys2Proof.Machine

/-! RFFT, MASK and IRFFT as operations, and the mask's bins: passband, conjugate mirror, zero (42_lpf R160 to R169). -/

namespace Sys2Proof.Machine

open Sys2Proof.Config

/-! ## Where the mask takes its bins from -/

/-- The passband and its mirror lie on either side of the middle (42_lpf R169). -/
theorem two_mul_cutoffOf_le (N : Nat) : 2 * cutoffOf N ≤ N := by
  have := (cutoffOf_eq_iff.mp (rfl : cutoffOf N = _)).1
  omega

/-- MASK reads passband bins alone (42_lpf R165). -/
theorem passband_of_binSource {N cutoff k i : Nat} (h : binSource N cutoff k = .pass i ∨ binSource N cutoff k = .mirror i) :
    1 ≤ i ∧ i < cutoff := by
  unfold binSource at h
  split_ifs at h with hpass hmirror
  · obtain rfl : k = i := by simpa using h
    exact hpass
  · obtain rfl : N - k = i := by simpa using h
    omega
  · simp at h

/-- The stopband, its mirror and the middle bins are zero (42_lpf R166). -/
theorem binSource_stopband {N cutoff k : Nat} (hk : cutoff ≤ k) (hmirror : k + cutoff ≤ N) : binSource N cutoff k = .zero := by
  rw [binSource, if_neg (by omega), if_neg (by omega)]

/-- With CUTOFF at most 1 there is no passband (42_lpf R168). -/
theorem binSource_of_cutoff_le_one {N cutoff : Nat} (h : cutoff ≤ 1) (k : Nat) : binSource N cutoff k = .zero := by
  rw [binSource, if_neg (by omega), if_neg (by omega)]

theorem binSource_mirror {N k : Nat} (hk : N < k + cutoffOf N) (hN : k < N) : binSource N (cutoffOf N) k = .mirror (N - k) := by
  have := two_mul_cutoffOf_le N
  rw [binSource, if_neg (by omega), if_pos ⟨hk, hN⟩]

/-- Bins `k` and `N - k`: one passes and the other mirrors it, or both are zero (42_lpf R169). -/
theorem binSource_reflect {N k : Nat} (h₁ : 1 ≤ k) (h₂ : k < N) :
    (binSource N (cutoffOf N) k = .pass k ∧ binSource N (cutoffOf N) (N - k) = .mirror k) ∨
      (binSource N (cutoffOf N) k = .mirror (N - k) ∧ binSource N (cutoffOf N) (N - k) = .pass (N - k)) ∨
      (binSource N (cutoffOf N) k = .zero ∧ binSource N (cutoffOf N) (N - k) = .zero) := by
  obtain hpass | hmirror | hstop : k < cutoffOf N ∨ N < k + cutoffOf N ∨ (cutoffOf N ≤ k ∧ k + cutoffOf N ≤ N) := by omega
  · have hmirror := binSource_mirror (N := N) (k := N - k) (by omega) (by omega)
    rw [Nat.sub_sub_self h₂.le] at hmirror
    exact .inl ⟨binSource_pass h₁ hpass, hmirror⟩
  · exact .inr (.inl ⟨binSource_mirror hmirror h₂, binSource_pass (by omega) (by omega)⟩)
  · exact .inr (.inr ⟨binSource_stopband hstop.1 hstop.2, binSource_stopband (by omega) (by omega)⟩)

/-! ## The mask's bins -/

section
variable {V : Type} {o : NumOps V} {N cutoff k : Nat} {spec : Nat → V × V}

theorem maskBin_of_pass {i : Nat} (h : binSource N cutoff k = .pass i) : maskBin o N cutoff spec k = spec i := by
  rw [maskBin, h]

theorem maskBin_of_mirror {i : Nat} (h : binSource N cutoff k = .mirror i) :
    maskBin o N cutoff spec k = o.conj (spec i) := by
  rw [maskBin, h]

theorem maskBin_of_zero (h : binSource N cutoff k = .zero) : maskBin o N cutoff spec k = o.czero := by
  rw [maskBin, h]

/-- A bin as the three ranges of 42_lpf R165. -/
theorem maskBin_eq_ite :
    maskBin o N cutoff spec k =
      if 1 ≤ k ∧ k < cutoff then spec k else if N < k + cutoff ∧ k < N then o.conj (spec (N - k)) else o.czero := by
  unfold maskBin binSource
  split_ifs <;> rfl

theorem maskBin_zero : maskBin o N (cutoffOf N) spec 0 = o.czero := maskBin_of_zero (binSource_zero (cutoffOf_le N))

theorem maskBin_middle (heven : N % 2 = 0) : maskBin o N (cutoffOf N) spec (N / 2) = o.czero := by
  have := two_mul_cutoffOf_le N
  exact maskBin_of_zero (binSource_stopband (by omega) (by omega))

/-- Without a passband every bin is zero (42_lpf R168). -/
theorem maskList_of_cutoff_le_one (h : cutoff ≤ 1) (bins : List (V × V)) :
    maskList o N cutoff bins = List.replicate N o.czero := by
  refine List.eq_replicate_iff.mpr ⟨maskList_length o N cutoff bins, fun z hz => ?_⟩
  obtain ⟨k, -, rfl⟩ := List.mem_map.mp hz
  exact maskBin_of_zero (binSource_of_cutoff_le_one h k)

end

theorem conj_conj {V : Type} (num : Numerics V) (z : V × V) : num.conj (num.conj z) = z :=
  Prod.ext rfl (num.neg_neg z.2)

/-- Settles O31: bins `k` and `N - k` are a passband bin and its mirror, or two zero bins. -/
theorem maskIsHermitian : Obligations.MaskIsHermitian := by
  intro V num N spec
  refine ⟨maskBin_zero, maskBin_middle, fun k h₁ h₂ => ?_⟩
  obtain ⟨hk, hmirror⟩ | ⟨hk, hpass⟩ | ⟨hk, hzero⟩ := binSource_reflect h₁ h₂
  · left
    rw [maskBin_of_pass hk, maskBin_of_mirror hmirror]
  · left
    rw [maskBin_of_mirror hk, maskBin_of_pass hpass, conj_conj]
  · right
    exact ⟨maskBin_of_zero hzero, maskBin_of_zero hk, num.val_zero, num.val_neg_zero⟩

/-! ## Sizes without a passband -/

theorem irfftList_czero {V : Type} (num : Numerics V) {N : Nat} (hN : 0 < N) :
    irfftList num.toNumOps N (List.replicate N num.czero) = List.replicate N num.zero := by
  have hbins : (fun k : Fin N => (List.replicate N num.czero).getD k.val num.czero) = fun _ => (num.zero, num.zero) :=
    funext fun k => by simp [NumOps.czero]
  rw [irfftList, hbins, funext (num.irfft_zero N hN), List.ofFn_const]

/-- A zero sample of FSIG is a zero output sample (N-SZERO, 45_arithmetic R239). -/
theorem outSample_zero {V : Type} (num : Numerics V) {N : Nat} (hN : 0 < N) : outSample num.toNumOps N num.zero = 0#16 := by
  rw [outSample, num.scale_zero N hN num.zero num.val_zero]
  rfl

theorem decimList_zero {V : Type} (num : Numerics V) {N : Nat} (hN : 0 < N) (nout : Nat) :
    decimList num.toNumOps N nout (List.replicate N num.zero) = List.replicate nout 0#16 := by
  refine List.eq_replicate_iff.mpr ⟨decimList_length _ _ _ _, fun u hu => ?_⟩
  obtain ⟨m, -, rfl⟩ := List.mem_map.mp hu
  have hread : (List.replicate N num.zero).getD (decimIndex m) num.zero = num.zero := by simp
  simp only [hread, outSample_zero num hN]

/-- Settles O32: CUTOFF is at most 1 up to `N = 27`, and zero bins stay zero through IRFFT and DECIM. -/
theorem smallSizesAreSilent : Obligations.SmallSizesAreSilent := by
  refine ⟨fun V num N ph hN hsmall => ?_, fun k hk => ?_⟩
  · have hcut : cutoffOf N ≤ 1 := by unfold cutoffOf cutoffDiv; omega
    have hmask := maskList_of_cutoff_le_one (o := num.toNumOps) (N := N) hcut (rfftList num.toNumOps N ph)
    refine ⟨hmask, ?_⟩
    rw [chunkSamples, lowPass, hmask, irfftList_czero num hN, decimList_zero num hN]
  · have hcut : cutoffOf 28 = 2 := rfl
    rw [hcut, binSource]
    split_ifs with hpass hmirror
    · exact iff_of_true nofun (by omega)
    · exact iff_of_true nofun (by omega)
    · exact iff_of_false (fun h => h rfl) (by omega)

/-! ## The operations -/

/-- Settles O28: with every phase value there, RFFT is the whole-buffer function. -/
theorem rfftWritesSpectrum : Obligations.RfftWritesSpectrum := fun _ _ _ hp hb hph hlen hspec =>
  exec_rfft_of_written hp hb hph hlen hspec

/-- Settles O30: with every bin there, IRFFT is the whole-buffer function. -/
theorem irfftWritesFilteredSignal : Obligations.IrfftWritesFilteredSignal := fun _ _ _ hp hb hfspec hlen hfsig =>
  exec_irfft_of_written hp hb hfspec hlen hfsig

/-- The passband bins are all that MASK reads (45_arithmetic R242). -/
theorem loadBin_of_passband (o : NumOps Code) {buf : List (Option (Code × Code))} {spec : Nat → Code × Code} {n cutoff : Nat}
    (hspec : ∀ i, 1 ≤ i → i < cutoff → buf[i]? = some (some (spec i))) (k : Nat) :
    loadBin o buf n cutoff k = .ok (maskBin o n cutoff spec k) := by
  have hload : ∀ i, 1 ≤ i ∧ i < cutoff → loadElem .spec buf i = .ok (spec i) := fun i hi =>
    loadElem_eq_ok.mpr (hspec i hi.1 hi.2)
  rw [loadBin, maskBin]
  cases hsrc : binSource n cutoff k with
  | zero => rfl
  | pass i => exact hload i (passband_of_binSource (.inl hsrc))
  | mirror i => simp only [hload i (passband_of_binSource (.inr hsrc))]

theorem exec_mask_of_passband {s : State} {b : Buffers} {spec : Nat → Code × Code} (hb : s.bufs = some b)
    (hfspec : b.fspec.length = s.nReg.toNat)
    (hspec : ∀ i, 1 ≤ i → i < s.cutoffReg.toNat → b.spec[i]? = some (some (spec i))) :
    exec .mask s = .next (s.advance
      { b with fspec := ((List.range s.nReg.toNat).map (maskBin numOps s.nReg.toNat s.cutoffReg.toNat spec)).map some }
      .irfft) := by
  have hread := collect_eq_map (is := List.range s.nReg.toNat) fun k _ =>
    loadBin_of_passband numOps (n := s.nReg.toNat) hspec k
  have hwrite := storeAll_full .fspec b.fspec
    ((List.range s.nReg.toNat).map (maskBin numOps s.nReg.toNat s.cutoffReg.toNat spec)) (by simp [hfspec])
  rw [exec_mask, maskWith, withBuffers_some _ hb]
  simp only [hread, hwrite, outcome_ok]

/-- Settles O29: every bin is the mask's, whose ranges are those of 42_lpf R165. -/
theorem maskWritesFilteredSpectrum : Obligations.MaskWritesFilteredSpectrum := by
  intro s b spec hb hcut hfspec hspec
  rw [exec_mask_of_passband hb hfspec hspec, List.map_map]
  refine congrArg (fun bins => Host.Outcome.next (s.advance { b with fspec := bins } .irfft))
    (List.map_congr_left fun k _ => ?_)
  have hpass : (k : Int) ≤ (s.cutoffReg.toNat : Int) - 1 ↔ k < s.cutoffReg.toNat := by omega
  have hmirror : ((s.nReg.toNat : Int) - s.cutoffReg.toNat + 1 ≤ k ∧ (k : Int) ≤ (s.nReg.toNat : Int) - 1) ↔
      (s.nReg.toNat < k + s.cutoffReg.toNat ∧ k < s.nReg.toNat) := by omega
  simp only [Function.comp_apply, maskBin_eq_ite, hpass, hmirror, apply_ite some]
  rfl

end Sys2Proof.Machine

/-! The exact transforms: the unit roots and their sums, the forward transform's properties and the sign convention (42_lpf R160,
R161). -/

namespace Sys2Proof.Machine

/-! ## Sums of unit roots -/

/-- Only whole turns give 1. -/
theorem exists_intCast_of_unitRoot_eq_one {t : ℝ} (h : unitRoot t = 1) : ∃ z : ℤ, t = z := by
  have hcos : Real.cos (2 * Real.pi * t) = 1 := by rw [← unitRoot_re, h, Complex.one_re]
  obtain ⟨z, hz⟩ := (Real.cos_eq_one_iff _).mp hcos
  rw [mul_comm] at hz
  exact ⟨z, (mul_left_cancel₀ Real.two_pi_pos.ne' hz).symm⟩

theorem unitRoot_half : unitRoot (1 / 2) = -1 := by
  have harg : 2 * Real.pi * (1 / 2) = Real.pi := by ring
  apply Complex.ext
  · rw [unitRoot_re, harg, Real.cos_pi]
    simp
  · rw [unitRoot_im, harg, Real.sin_pi]
    simp

/-- At bin `N/2` the unit roots alternate (42_lpf R161 (b)). -/
theorem unitRoot_middle {N : Nat} (hN : 1 ≤ N) (heven : N % 2 = 0) (n : Nat) :
    unitRoot (((N / 2 : Nat) : ℝ) * n / N) = (-1) ^ n := by
  have hN' : (N : ℝ) ≠ 0 := by exact_mod_cast Nat.one_le_iff_ne_zero.mp hN
  have harg : ((N / 2 : Nat) : ℝ) * n / N = n * (1 / 2) := by
    rw [Nat.cast_div (Nat.dvd_of_mod_eq_zero heven) two_ne_zero, Nat.cast_two]
    field_simp
  rw [harg, unitRoot_natMul, unitRoot_half]

/-- The roots of bins `k` and `N - k` are conjugates. -/
theorem unitRoot_mirror {N k : Nat} (hN : 0 < N) (hk : k ≤ N) (n : Nat) :
    unitRoot (((N - k : Nat) : ℝ) * n / N) = (starRingEnd ℂ) (unitRoot ((k : ℝ) * n / N)) := by
  have hN' : (N : ℝ) ≠ 0 := by exact_mod_cast hN.ne'
  have harg : ((N - k : Nat) : ℝ) * n / N = n + -((k : ℝ) * n / N) := by
    rw [Nat.cast_sub hk]
    field_simp
    ring
  rw [harg, unitRoot_add, unitRoot_natCast, one_mul, unitRoot_conj]

/-- The unit roots of a bin that is no multiple of `N` sum to zero (42_lpf R161 (f)). -/
theorem sum_unitRoot_eq_zero {N : Nat} {j : ℤ} (hN : 1 ≤ N) (hj : ¬ (N : ℤ) ∣ j) :
    ∑ n : Fin N, unitRoot ((j : ℝ) * n.val / N) = 0 := by
  have hN' : (N : ℝ) ≠ 0 := by exact_mod_cast Nat.one_le_iff_ne_zero.mp hN
  have hpow : ∀ n : Nat, unitRoot ((j : ℝ) * n / N) = unitRoot (j / N) ^ n := fun n => by
    rw [← unitRoot_natMul]
    ring_nf
  have hne : unitRoot (j / N) ≠ 1 := fun h => by
    obtain ⟨z, hz⟩ := exists_intCast_of_unitRoot_eq_one h
    refine hj ⟨z, ?_⟩
    rw [div_eq_iff hN'] at hz
    rw [mul_comm]
    exact_mod_cast hz
  have hclosed : unitRoot (j / N) ^ N = 1 := by
    rw [← unitRoot_natMul, mul_div_cancel₀ _ hN', unitRoot_intCast]
  rw [Fin.sum_univ_eq_sum_range (fun n : Nat => unitRoot ((j : ℝ) * n / N)), Finset.sum_congr rfl fun n _ => hpow n,
    geom_sum_eq hne, hclosed, sub_self, zero_div]

/-! ## The forward transform -/

section
variable {N : Nat} {x : Fin N → ℝ}

theorem dftExact_zero : dftExact N x 0 = ((∑ n, x n : ℝ) : ℂ) := by
  simp [dftExact]

theorem dftExact_middle (hN : 1 ≤ N) (heven : N % 2 = 0) :
    dftExact N x (N / 2) = ((∑ n : Fin N, (-1) ^ n.val * x n : ℝ) : ℂ) := by
  rw [dftExact, Complex.ofReal_sum]
  refine Finset.sum_congr rfl fun n _ => ?_
  rw [← unitRoot_conj, unitRoot_middle hN heven]
  simp [mul_comm]

theorem dftExact_mirror (hN : 1 ≤ N) {k : Nat} (hk : k ≤ N) :
    dftExact N x (N - k) = (starRingEnd ℂ) (dftExact N x k) := by
  rw [dftExact, dftExact, map_sum]
  refine Finset.sum_congr rfl fun n _ => ?_
  rw [← unitRoot_conj, unitRoot_mirror hN hk, Complex.conj_conj, map_mul, Complex.conj_ofReal, unitRoot_conj, neg_neg]

theorem dftExact_add (y : Fin N → ℝ) (k : Nat) : dftExact N (fun n => x n + y n) k = dftExact N x k + dftExact N y k := by
  simp only [dftExact, Complex.ofReal_add, add_mul, Finset.sum_add_distrib]

theorem dftExact_const (c : ℝ) {k : Nat} (h₁ : 1 ≤ k) (h₂ : k < N) : dftExact N (fun _ => c) k = 0 := by
  have hndvd : ¬ (N : ℤ) ∣ -(k : ℤ) := fun h =>
    absurd (Nat.le_of_dvd h₁ (Int.natCast_dvd_natCast.mp (dvd_neg.mp h))) (by omega)
  have hsum := sum_unitRoot_eq_zero (h₁.trans h₂.le) hndvd
  push_cast at hsum
  rw [dftExact, ← Finset.mul_sum]
  simp only [← neg_div, ← neg_mul, hsum, mul_zero]

end

/-- Settles O33: each property from the unit roots of its bin. -/
theorem forwardTransformProperties : Obligations.ForwardTransformProperties := by
  intro N x y hN
  refine ⟨dftExact_zero, dftExact_middle hN, fun k hk => dftExact_mirror hN hk, dftExact_add y,
    fun c k h₁ h₂ => dftExact_const c h₁ h₂, fun c => ?_⟩
  simp [dftExact_zero]

/-! ## The filter as one function of the phase values -/

theorem rfftList_getD {V : Type} (o : NumOps V) (N : Nat) (ph : List V) (i : Nat) :
    (rfftList o N ph).getD i o.czero = spectrumAt o N (fun n => ph.getD n.val o.zero) i := by
  by_cases h : i < specLen N <;> simp [rfftList, spectrumAt, List.getD_eq_getElem?_getD, h]

theorem maskList_getD {V : Type} (o : NumOps V) (bins : List (V × V)) {N k : Nat} (cutoff : Nat) (hk : k < N) :
    (maskList o N cutoff bins).getD k o.czero = maskBin o N cutoff (fun i => bins.getD i o.czero) k := by
  simp [maskList, List.getD_eq_getElem?_getD, hk]

/-- The buffers' passage through the three operations, as the filter of 44_driver R220 by index. -/
theorem lowPass_eq_ofFn {V : Type} (o : NumOps V) (N : Nat) (ph : List V) :
    lowPass o N ph = List.ofFn (filteredAt o N fun n => ph.getD n.val o.zero) := by
  rw [lowPass, irfftList]
  congr 2
  funext k
  rw [maskList_getD o _ _ k.isLt, maskedAt, funext (rfftList_getD o N ph)]

/-! ## The sign convention -/

/-- The other convention's spectrum holds the conjugate bins, and MASK passes the conjugation on (42_lpf R161 (g)). -/
theorem cval_maskedAt_otherSign {N : Nat} (x : Fin N → ℝ) (k : Fin N) :
    cval id (maskedAt exactOpsOtherSign N x k) = (starRingEnd ℂ) (cval id (maskedAt exactOps N x k)) := by
  have hspec : ∀ i, spectrumAt exactOpsOtherSign N x i = exactOps.conj (spectrumAt exactOps N x i) := fun i => by
    by_cases h : i < specLen N <;> simp [spectrumAt, NumOps.conj, NumOps.czero, exactOps, exactOpsOtherSign, h]
  simp only [maskedAt, maskBin, hspec]
  cases binSource N (cutoffOf N) k.val <;>
    simp [cval, NumOps.conj, NumOps.czero, exactOps, exactOpsOtherSign, Complex.ext_iff]

/-- Settles O34: every term of the inverse sum is conjugated, which its real part does not show. -/
theorem signConventionUnobservable : Obligations.SignConventionUnobservable := by
  intro N ph
  rw [lowPass_eq_ofFn, lowPass_eq_ofFn]
  congr 1
  funext n
  change (∑ k : Fin N, cval id (maskedAt exactOpsOtherSign N (fun n => ph.getD n.val 0) k) * _).re =
    (∑ k : Fin N, cval id (maskedAt exactOps N (fun n => ph.getD n.val 0) k) * _).re
  simp only [cval_maskedAt_otherSign, ← unitRoot_conj, ← map_mul, ← map_sum, Complex.conj_re]

end Sys2Proof.Machine

/-! The filter under exact arithmetic: the half-spectrum form of the inverse transform, the sum over the passband, the circular
convolution and the response to a cosine (42_lpf R172 to R175). -/

namespace Sys2Proof.Machine

/-! ## The half-spectrum form -/

/-- A sum over bins that takes the same value at `k` and `N - k` needs half of them: each high bin stands opposite a low one. -/
theorem sum_eq_half_of_symm {N : Nat} [NeZero N] (g : Fin N → ℝ) (hsymm : ∀ k, g (-k) = g k) :
    ∑ k, g k = g 0 + 2 * (∑ k : Fin N, if 1 ≤ k.val ∧ 2 * k.val < N then g k else 0)
      + ∑ k : Fin N, if 2 * k.val = N then g k else 0 := by
  have hhigh : (∑ k : Fin N, if N < 2 * k.val then g k else 0) =
      ∑ k : Fin N, if 1 ≤ k.val ∧ 2 * k.val < N then g k else 0 := by
    rw [← Equiv.sum_comp (Equiv.neg (Fin N))]
    refine Finset.sum_congr rfl fun k _ => ?_
    have hmem : N < 2 * (-k).val ↔ 1 ≤ k.val ∧ 2 * k.val < N := by
      rw [Fin.val_neg]
      split_ifs with hk
      · simp [hk]
      · have := Fin.val_ne_zero_iff.mpr hk
        omega
    simp only [Equiv.neg_apply, hsymm, hmem]
  have hzero : (∑ k : Fin N, if k = 0 then g k else 0) = g 0 := by simp
  have hsplit : ∀ k : Fin N, g k = (if k = 0 then g k else 0) + (if 1 ≤ k.val ∧ 2 * k.val < N then g k else 0)
      + (if N < 2 * k.val then g k else 0) + (if 2 * k.val = N then g k else 0) := fun k => by
    simp only [← Fin.val_eq_zero_iff]
    obtain h | h | h | h : k.val = 0 ∨ (1 ≤ k.val ∧ 2 * k.val < N) ∨ N < 2 * k.val ∨ (1 ≤ k.val ∧ 2 * k.val = N) := by omega
    · rw [if_pos h, if_neg (by omega), if_neg (by omega), if_neg (by omega)]
      ring
    · rw [if_neg (by omega), if_pos h, if_neg (by omega), if_neg (by omega)]
      ring
    · rw [if_neg (by omega), if_neg (by omega), if_pos h, if_neg (by omega)]
      ring
    · rw [if_neg (by omega), if_neg (by omega), if_neg (by omega), if_pos h.2]
      ring
  rw [Finset.sum_congr rfl fun k _ => hsplit k]
  simp only [Finset.sum_add_distrib, hhigh, hzero]
  ring

/-- Settles O35: the terms of the sum over a Hermitian spectrum have the same real part at `k` and `N - k`. -/
theorem halfSpectrumFormAgrees : Obligations.HalfSpectrumFormAgrees := by
  intro N hN F hreal hherm n hn
  have : NeZero N := ⟨hN.ne'⟩
  have hsymm : ∀ k : Fin N, (F (-k) * unitRoot (((-k : Fin N).val : ℝ) * n / N)).re =
      (F k * unitRoot ((k.val : ℝ) * n / N)).re := fun k => by
    by_cases hk : k = 0
    · simp [hk]
    · have hval : (-k).val = N - k.val := by rw [Fin.val_neg, if_neg hk]
      have hmirror : F (-k) = (starRingEnd ℂ) (F k) :=
        (congrArg F (Fin.ext hval)).trans (hherm k.val (Nat.one_le_iff_ne_zero.mpr (Fin.val_ne_zero_iff.mpr hk)) k.isLt)
      rw [hmirror, hval, unitRoot_mirror hN k.isLt.le, ← map_mul, Complex.conj_re]
  have hmiddle : (∑ k : Fin N, if 2 * k.val = N then (F k * unitRoot ((k.val : ℝ) * n / N)).re else 0) =
      if N % 2 = 0 then (-1) ^ n * (F ⟨N / 2, by omega⟩).re else 0 := by
    split_ifs with heven
    · have hmem : ∀ k : Fin N, 2 * k.val = N ↔ k = ⟨N / 2, by omega⟩ := fun k => by
        simp only [Fin.ext_iff]
        omega
      have hroot := unitRoot_middle hN heven n
      have hpow : ((-1 : ℂ) ^ n) = ((-1 : ℝ) ^ n : ℝ) := by push_cast; rfl
      simp only [hmem, Finset.sum_ite_eq', Finset.mem_univ, if_true, hroot, hpow, Complex.re_mul_ofReal]
      ring
    · exact Finset.sum_eq_zero fun k _ => if_neg (by omega)
  rw [idftExact, Complex.re_sum, sum_eq_half_of_symm _ hsymm, hmiddle]
  have hbin0 : ((F 0) * unitRoot (((0 : Fin N).val : ℝ) * n / N)).re = (F ⟨0, hN⟩).re := by
    simp
  rw [hbin0]

/-! ## The filtered signal as a sum over the passband -/

section
variable {N : Nat} (x : Fin N → ℝ)

theorem cval_spectrumAt_exact {i : Nat} (hi : i < specLen N) : cval id (spectrumAt exactOps N x i) = dftExact N x i := by
  rw [spectrumAt, dif_pos hi]
  rfl

/-- Below the middle the mask keeps the passband of the exact spectrum and no other bin. -/
theorem cval_maskedAt_exact_low {k : Fin N} (h₁ : 1 ≤ k.val) (h₂ : 2 * k.val < N) :
    cval id (maskedAt exactOps N x k) = if k.val < cutoffOf N then dftExact N x k else 0 := by
  have hcut := two_mul_cutoffOf_le N
  rw [maskedAt]
  split_ifs with hk
  · rw [maskBin_of_pass (binSource_pass h₁ hk), cval_spectrumAt_exact x (hk.trans_le (cutoff_le_specLen N))]
  · rw [maskBin_of_zero (binSource_stopband (by omega) (by omega))]
    rfl

/-- 42_lpf R169 for the complex values: exact arithmetic has one zero, its own conjugate. -/
theorem cval_maskedAt_exact_mirror {k : Nat} (h₁ : 1 ≤ k) (h₂ : k < N) :
    cval id (maskedAt exactOps N x ⟨N - k, by omega⟩) = (starRingEnd ℂ) (cval id (maskedAt exactOps N x ⟨k, h₂⟩)) := by
  obtain ⟨-, -, hherm⟩ := maskIsHermitian ℝ exactNumerics N (spectrumAt exactOps N x)
  obtain hconj | ⟨hmirror, hk, -⟩ := hherm k h₁ h₂
  · exact congrArg (cval id) hconj
  · calc cval id (maskedAt exactOps N x ⟨N - k, by omega⟩)
      _ = 0 := congrArg (cval id) hmirror
      _ = (starRingEnd ℂ) 0 := (map_zero _).symm
      _ = (starRingEnd ℂ) (cval id (maskedAt exactOps N x ⟨k, h₂⟩)) := congrArg (fun z => (starRingEnd ℂ) (cval id z)) hk.symm

/-- 42_lpf R173, the first form: the masked spectrum is Hermitian, so half of its passband gives the filtered sample. -/
theorem filteredAt_exact (n : Fin N) :
    filteredAt exactOps N x n =
      2 * ∑ k ∈ Finset.Ico 1 (cutoffOf N), (dftExact N x k * unitRoot ((k : ℝ) * n.val / N)).re := by
  have hN : 0 < N := n.pos
  have hcut := two_mul_cutoffOf_le N
  have hbin0 : cval id (maskedAt exactOps N x ⟨0, hN⟩) = 0 := congrArg (cval id) maskBin_zero
  have hmiddle : (if N % 2 = 0 then (-1) ^ n.val * (cval id (maskedAt exactOps N x ⟨N / 2, by omega⟩)).re else 0) = 0 := by
    split_ifs with heven
    · have hbin : cval id (maskedAt exactOps N x ⟨N / 2, by omega⟩) = 0 := congrArg (cval id) (maskBin_middle heven)
      rw [hbin, Complex.zero_re, mul_zero]
    · rfl
  have hterm : ∀ k : Fin N,
      (if 1 ≤ k.val ∧ 2 * k.val < N then (cval id (maskedAt exactOps N x k) * unitRoot ((k.val : ℝ) * n.val / N)).re else 0) =
        if 1 ≤ k.val ∧ k.val < cutoffOf N then (dftExact N x k * unitRoot ((k.val : ℝ) * n.val / N)).re else 0 := fun k => by
    split_ifs with hlow hpass hpass
    · rw [cval_maskedAt_exact_low x hlow.1 hlow.2, if_pos hpass.2]
    · rw [cval_maskedAt_exact_low x hlow.1 hlow.2, if_neg fun h => hpass ⟨hlow.1, h⟩, zero_mul, Complex.zero_re]
    · exact absurd ⟨hpass.1, by omega⟩ hlow
    · rfl
  have hpassband : (Finset.range N).filter (fun k => 1 ≤ k ∧ k < cutoffOf N) = Finset.Ico 1 (cutoffOf N) := by
    ext k
    simp only [Finset.mem_filter, Finset.mem_range, Finset.mem_Ico]
    omega
  have hhalf := halfSpectrumFormAgrees N hN (fun k => cval id (maskedAt exactOps N x k)) (by rw [hbin0, Complex.zero_im])
    (fun k h₁ h₂ => cval_maskedAt_exact_mirror x h₁ h₂) n.val n.isLt
  rw [Finset.sum_congr rfl fun k _ => hterm k, hmiddle, hbin0, Complex.zero_re, zero_add, add_zero,
    Fin.sum_univ_eq_sum_range fun k =>
      if 1 ≤ k ∧ k < cutoffOf N then (dftExact N x k * unitRoot ((k : ℝ) * n.val / N)).re else 0,
    ← Finset.sum_filter, hpassband] at hhalf
  exact hhalf

end

theorem lowPass_exact_getElem? {N n : Nat} (ph : List ℝ) (hn : n < N) :
    (lowPass exactOps N ph)[n]? =
      some (2 * ∑ k ∈ Finset.Ico 1 (cutoffOf N),
        (dftExact N (fun m => ph.getD m.val 0) k * unitRoot ((k : ℝ) * n / N)).re) := by
  rw [lowPass_eq_ofFn, List.getElem?_ofFn, dif_pos hn, filteredAt_exact]
  rfl

/-! ## The filter as a circular convolution -/

theorem unitRoot_mod {N : Nat} (hN : 0 < N) (k a : Nat) :
    unitRoot ((k : ℝ) * (a % N : Nat) / N) = unitRoot ((k : ℝ) * a / N) := by
  have hN' : (N : ℝ) ≠ 0 := by exact_mod_cast hN.ne'
  have hdivmod : (a : ℝ) = N * (a / N : Nat) + (a % N : Nat) := by exact_mod_cast (Nat.div_add_mod a N).symm
  have harg : (k : ℝ) * a / N = (k : ℝ) * (a % N : Nat) / N + (k * (a / N) : Nat) := by
    rw [hdivmod]
    push_cast
    field_simp
    ring
  rw [harg, unitRoot_add, unitRoot_natCast, mul_one]

/-- The forward and the inverse root of a bin depend on the distance `(n - m) mod N` alone. -/
theorem unitRoot_distance {N m : Nat} (hm : m < N) (k n : Nat) :
    unitRoot (-((k : ℝ) * m / N)) * unitRoot ((k : ℝ) * n / N) = unitRoot ((k : ℝ) * ((n + N - m) % N : Nat) / N) := by
  have hN : 0 < N := m.zero_le.trans_lt hm
  have hN' : (N : ℝ) ≠ 0 := by exact_mod_cast hN.ne'
  have harg : (k : ℝ) * (n + N - m : Nat) / N = -((k : ℝ) * m / N) + (k : ℝ) * n / N + k := by
    rw [Nat.cast_sub (by omega)]
    push_cast
    field_simp
    ring
  rw [unitRoot_mod hN, harg, unitRoot_add, unitRoot_add, unitRoot_natCast, mul_one]

theorem dftExact_mul_unitRoot_re {N : Nat} (x : Fin N → ℝ) (k n : Nat) :
    (dftExact N x k * unitRoot ((k : ℝ) * n / N)).re =
      ∑ m : Fin N, x m * Real.cos (2 * Real.pi * (k : ℝ) * ((n + N - m.val) % N : Nat) / N) := by
  rw [dftExact, Finset.sum_mul, Complex.re_sum]
  refine Finset.sum_congr rfl fun m _ => ?_
  rw [mul_assoc, unitRoot_distance m.isLt, Complex.re_ofReal_mul, unitRoot_re, ← mul_div_assoc, ← mul_assoc]

/-- Settles O36: the first form is the half-spectrum sum; exchanging the two sums gives the second. -/
theorem filterIsCircularConvolution : Obligations.FilterIsCircularConvolution := by
  intro N ph _ _ n hn
  rw [lowPass_exact_getElem? ph hn]
  refine ⟨?_, ?_⟩
  · simp only [Complex.mul_re, unitRoot_re, unitRoot_im, ← mul_div_assoc, ← mul_assoc]
  · simp only [dftExact_mul_unitRoot_re, filterKernel, Finset.mul_sum]
    rw [Finset.sum_comm]
    simp only [mul_left_comm]

/-! ## The response to a cosine -/

theorem cos_eq_unitRoot (t : ℝ) : ((Real.cos (2 * Real.pi * t) : ℝ) : ℂ) = (unitRoot t + unitRoot (-t)) / 2 := by
  rw [← unitRoot_conj, Complex.add_conj, unitRoot_re]
  push_cast
  ring

theorem tone_getD {N : Nat} (A : ℝ) (f : Nat) (p : ℝ) (n : Fin N) :
    (tone N A f p).getD n.val 0 = A * Real.cos (2 * Real.pi * (f : ℝ) * n.val / N + p) := by
  simp [tone, List.getD_eq_getElem?_getD]

/-- A cosine as its phase in turns. -/
theorem tone_arg (N f n : Nat) (p : ℝ) :
    2 * Real.pi * (f : ℝ) * n / N + p = 2 * Real.pi * (p / (2 * Real.pi) + (f : ℝ) * n / N) := by
  field_simp
  ring

/-- A cosine of frequency `f` stands in bin `f` alone, among the bins whose mirror `f` does not reach (42_lpf R175). -/
theorem dftExact_tone {N f k : Nat} (A p : ℝ) (h₁ : 1 ≤ k) (h₂ : k + f < N) :
    dftExact N (fun n => (tone N A f p).getD n.val 0) k =
      if k = f then N * (A / 2) * unitRoot (p / (2 * Real.pi)) else 0 := by
  have hN : 1 ≤ N := by omega
  have hterm : ∀ n : Fin N,
      (((tone N A f p).getD n.val 0 : ℝ) : ℂ) * unitRoot (-((k : ℝ) * n.val / N)) =
        (A / 2) * unitRoot (p / (2 * Real.pi)) * unitRoot ((((f : ℤ) - k : ℤ) : ℝ) * n.val / N)
          + (A / 2) * unitRoot (-(p / (2 * Real.pi))) * unitRoot (((-(f + k : ℤ) : ℤ) : ℝ) * n.val / N) := fun n => by
    have hdiff : (((f : ℤ) - k : ℤ) : ℝ) * n.val / N = (f : ℝ) * n.val / N + -((k : ℝ) * n.val / N) := by
      push_cast
      ring
    have hsum : ((-(f + k : ℤ) : ℤ) : ℝ) * n.val / N = -((f : ℝ) * n.val / N) + -((k : ℝ) * n.val / N) := by
      push_cast
      ring
    rw [tone_getD, tone_arg, Complex.ofReal_mul, cos_eq_unitRoot, neg_add, hdiff, hsum]
    simp only [unitRoot_add]
    ring
  have hndvd : ∀ j : ℤ, j ≠ 0 → |j| < N → ¬ (N : ℤ) ∣ j := fun j hj hlt hdvd => hj (Int.eq_zero_of_abs_lt_dvd hdvd hlt)
  have hmirror := sum_unitRoot_eq_zero hN (hndvd (-(f + k : ℤ)) (by omega) (by rw [abs_neg, abs_of_nonneg] <;> omega))
  rw [dftExact, Finset.sum_congr rfl fun n _ => hterm n, Finset.sum_add_distrib, ← Finset.mul_sum, ← Finset.mul_sum, hmirror,
    mul_zero, add_zero]
  split_ifs with hk
  · have hone : ∀ n : Fin N, unitRoot ((((f : ℤ) - k : ℤ) : ℝ) * n.val / N) = 1 := fun n => by simp [hk]
    simp only [hone, Finset.sum_const, Finset.card_fin, nsmul_eq_mul]
    ring
  · rw [sum_unitRoot_eq_zero hN (hndvd (f - k : ℤ) (by omega) (by rw [abs_lt]; omega)), mul_zero]

/-- 42_lpf R175, by sample. -/
theorem filteredAt_tone {N f : Nat} (A p : ℝ) (hf : f ≤ N / 2) (n : Fin N) :
    filteredAt exactOps N (fun m => (tone N A f p).getD m.val 0) n =
      if 1 ≤ f ∧ f < cutoffOf N then (N : ℝ) * (tone N A f p).getD n.val 0 else 0 := by
  have hN : 0 < N := n.pos
  have hcut := two_mul_cutoffOf_le N
  have hterm : ∀ k ∈ Finset.Ico 1 (cutoffOf N),
      (dftExact N (fun m => (tone N A f p).getD m.val 0) k * unitRoot ((k : ℝ) * n.val / N)).re =
        if k = f then (N : ℝ) * (A / 2) * Real.cos (2 * Real.pi * (p / (2 * Real.pi) + (f : ℝ) * n.val / N)) else 0 := by
    intro k hk
    obtain ⟨h₁, h₂⟩ := Finset.mem_Ico.mp hk
    rw [dftExact_tone A p h₁ (by omega)]
    split_ifs with hkf
    · have hgain : (N : ℂ) * (A / 2) = ((N * (A / 2) : ℝ) : ℂ) := by push_cast; rfl
      rw [hkf, hgain, mul_assoc, ← unitRoot_add, Complex.re_ofReal_mul, unitRoot_re]
    · rw [zero_mul, Complex.zero_re]
  rw [filteredAt_exact, Finset.sum_congr rfl hterm, Finset.sum_ite_eq', tone_getD, tone_arg]
  simp only [Finset.mem_Ico]
  split_ifs
  · ring
  · rw [mul_zero]

/-- Settles O37: in the passband the one bin of the cosine passes, elsewhere none does. -/
theorem filterProperty : Obligations.FilterProperty := by
  intro N f A p
  have hcut := two_mul_cutoffOf_le N
  refine ⟨fun h₁ h₂ => ?_, fun hN hstop => ?_⟩
  · rw [lowPass_eq_ofFn, tone, List.map_ofFn]
    refine congrArg List.ofFn (funext fun n => ?_)
    exact (filteredAt_tone A p (by omega) n).trans ((if_pos ⟨h₁, h₂⟩).trans (congrArg _ (tone_getD A f p n)))
  · have hzero : filteredAt exactOps N (fun m => (tone N A f p).getD m.val 0) = fun _ => 0 := funext fun n => by
      rw [filteredAt_tone A p (by omega), if_neg (by omega)]
    rw [lowPass_eq_ofFn, ← List.ofFn_const]
    exact congrArg List.ofFn hzero

end Sys2Proof.Machine

/-! DECIM and EMIT: what each answers where its input is written, the gain of the passband and the bytes of an Output Chunk
(43_decim R190 to R200, 20_memory R61). -/

namespace Sys2Proof.Machine

open Sys2Proof.Config

/-! ## DECIM -/

/-- The elements at the indices `5 m` are all that DECIM reads (43_decim R190, R191). -/
theorem exec_decim_of_decimated {s : State} {b : Buffers} {fsig : Nat → Code} (hb : s.bufs = some b)
    (hobuf : b.obuf.length = s.noutReg.toNat)
    (hfsig : ∀ m, m < s.noutReg.toNat → b.fsig[decimIndex m]? = some (some (fsig m))) :
    exec .decim s = .next (s.advance
      { b with obuf := ((List.range s.noutReg.toNat).map fun m => outSample numOps s.nReg.toNat (fsig m)).map some } .emit) := by
  have hread : collect (loadOut numOps b.fsig s.nReg.toNat) (List.range s.noutReg.toNat) =
      .ok ((List.range s.noutReg.toNat).map fun m => outSample numOps s.nReg.toNat (fsig m)) :=
    collect_eq_map fun m hm => by simp only [loadOut, loadElem_eq_ok.mpr (hfsig m (List.mem_range.mp hm))]
  have hwrite := storeAll_full .obuf b.obuf
    ((List.range s.noutReg.toNat).map fun m => outSample numOps s.nReg.toNat (fsig m)) (by simp [hobuf])
  rw [exec_decim, decimWith, withBuffers_some _ hb]
  simp only [hread, hwrite, outcome_ok]

/-- Settles O38: the elements given are all that DECIM reads. -/
theorem decimWritesOutputChunk : Obligations.DecimWritesOutputChunk := by
  intro s b fsig hb hobuf hfsig
  rw [exec_decim_of_decimated hb hobuf hfsig, List.map_map]
  rfl

/-- The scaling divides out the `N` of the unnormalised inverse transform (43_decim R192). -/
theorem scaleExact_natCast_mul {N : Nat} (hN : 0 < N) (y : ℝ) : scaleExact N (N * y) = truncReal (10000 * y) := by
  have hne : (N : ℝ) ≠ 0 := by exact_mod_cast hN.ne'
  have hquot : (N : ℝ) * y * (ampScale : ℝ) / N = 10000 * y := by
    rw [ampScale]
    field_simp
    norm_num
  rw [scaleExact, hquot]

/-- Settles O39: the filter multiplies the cosine by `N`, and the scaling divides by it. -/
theorem passbandOutputGain : Obligations.PassbandOutputGain := by
  intro N f A p h₁ h₂
  have hN : 0 < N := by have := cutoffOf_le N; omega
  rw [chunkSamples, (filterProperty N f A p).1 h₁ h₂]
  refine List.map_congr_left fun m _ => congrArg narrow ?_
  have hread : ((tone N A f p).map fun y => (N : ℝ) * y).getD (5 * m) 0 = N * (tone N A f p).getD (5 * m) 0 := by
    simpa only [mul_zero] using List.getD_map (f := fun y => (N : ℝ) * y) (l := tone N A f p) (d := 0) (n := 5 * m)
  exact (congrArg (scaleExact N) hread).trans (scaleExact_natCast_mul hN _)

/-! ## EMIT -/

/-- The byte order of an Output Chunk: sample `m` is low byte at `2m`, high byte at `2m + 1` (20_memory R61). -/
theorem serialise_getD : ∀ (out : List Sample) (m : Nat),
    (serialise out).getD (2 * m) 0 = (out.getD m 0).extractLsb' 0 8 ∧
      (serialise out).getD (2 * m + 1) 0 = (out.getD m 0).extractLsb' 8 8
  | [], _ => by simp [serialise]
  | _ :: _, 0 => ⟨rfl, rfl⟩
  | _ :: rest, m + 1 => serialise_getD rest m

theorem lowByte_toNat (u : Sample) : (u.extractLsb' 0 8).toNat = u.toNat % 256 := by
  simp [BitVec.extractLsb'_toNat]

theorem highByte_toNat (u : Sample) : (u.extractLsb' 8 8).toNat = u.toNat / 256 := by
  have hu := u.isLt
  rw [BitVec.extractLsb'_toNat, Nat.shiftRight_eq_div_pow]
  exact Nat.mod_eq_of_lt (by omega)

/-- Settles O42: the bytes are those of `serialise`, and EMIT leaves the buffers as they are. -/
theorem emitAppendsChunk : Obligations.EmitAppendsChunk := by
  intro s b out hready hb hobuf hlen
  refine ⟨serialise out, ?_, by rw [serialise_length, hlen], fun m _ => ?_⟩
  · rw [exec_emit_of_written hready hb hobuf hlen, State.advance, ← hb]
    rfl
  · obtain ⟨hlow, hhigh⟩ := serialise_getD out m
    rw [hlow, hhigh]
    exact ⟨lowByte_toNat _, highByte_toNat _⟩

end Sys2Proof.Machine

/-! RUN, FETCH, RELEASE, the sequencer's turn, and the transitions of ST and STAGE (44_driver R210 to R219). -/

namespace Sys2Proof.Machine

/-! ## RUN, FETCH and RELEASE -/

theorem exec_release (s : State) : exec .release s = .next (releaseAll s) := rfl

theorem startRun_of_ready {s : State} (hready : s.st = .ready) :
    startRun s = { s with st := .running, stage := opcode .fetch } :=
  if_pos hready

/-- Settles O15: the branch of RUN in READY; FETCH's code is 3. -/
theorem runStartsTheLoop : Obligations.RunStartsTheLoop := by
  intro s hready
  rw [exec_run, startRun_of_ready hready, opcode]

/-- Settles O18: RELEASE has one branch, and asks neither ST nor STAGE. -/
theorem releaseEndsTheRun : Obligations.ReleaseEndsTheRun := exec_release

theorem fillResult_of_length {len : Nat} {bytes : List Byte} (h : bytes.length = len) :
    fillResult len (.obtained bytes) = some bytes :=
  if_pos h

/-- Any other count, and a device failure, is Fail (20_memory R66). -/
theorem fillResult_eq_none {len : Nat} {a : FillAnswer} (h : ∀ bytes, a = .obtained bytes → bytes.length ≠ len) :
    fillResult len a = none := by
  cases a with
  | deviceError => rfl
  | obtained bytes => exact if_neg (h bytes rfl)

/-- Settles O16: exactly `L` bytes are an accepted fill, which is written over the whole of IQBUF. -/
theorem fetchStoresChunk : Obligations.FetchStoresChunk := by
  intro s b bytes rest hb hiq hsrc hlen
  rw [exec_fetch_of_chunk hsrc hb (fillResult_of_length hlen) (hlen.trans hiq.symm), State.advance, opcode]

theorem staleBuffer_length (draw : Nat) (buf : List (Option Byte)) : (staleBuffer draw buf).length = buf.length := by
  simp [staleBuffer]

/-- Settles O17: every other answer is a failed fill, which leaves free values in IQBUF. -/
theorem fetchEndsOnFailure : Obligations.FetchEndsOnFailure := by
  intro s b a rest hb hsrc hfail
  refine ⟨staleBuffer s.freeCount b.iq, staleBuffer_length _ _, ?_⟩
  rw [exec_fetch_of_failure hsrc hb (fillResult_eq_none hfail), State.advance, opcode]

/-! ## The sequencer's turn -/

/-- Settles O4: a code that decodes is the code of its stage operation. -/
theorem stepRunsStageOperation : Obligations.StepRunsStageOperation := by
  intro s i heng hrun hdec
  obtain ⟨hcode, hi⟩ := decodeStage_ok hdec
  exact step_of_stage heng hrun hi hcode

/-- Settles O5: outside RUNNING the sequencer has no operation (44_driver R211). -/
theorem sequencerRestsOutsideRunning : Obligations.SequencerRestsOutsideRunning := by
  intro s heng hrun
  have hst : s.taken.st ≠ .running := hrun
  rw [step, nextTurn_of_engineNext heng, sequencerTurn, if_neg hst]

/-! ## The transitions of ST and STAGE -/

theorem exists_head_of_resetNext {s : State} (h : resetNext s = true) :
    ∃ sent resumed rest, s.inputs = .reset sent resumed :: rest := by
  unfold resetNext at h
  split at h
  · rename_i sent resumed rest hin
    exact ⟨sent, resumed, rest, hin⟩
  · cases h

theorem step_of_reset {s : State} {sent : Nat} {resumed : List FillAnswer} {rest : List Input}
    (hin : s.inputs = .reset sent resumed :: rest) :
    step s = .next (({ s with inputs := rest } : State).takeReset sent resumed) := by
  rw [step, nextTurn_cons hin, inputTurn]

theorem st_of_exec_release {s t : State} (h : exec .release s = .next t) : t.st = .done := by
  obtain rfl : releaseAll s = t := by simpa [exec_release] using h
  rfl

/-- A stage operation keeps ST but for RELEASE, which ends the run. -/
theorem transition_of_exec {i : Instr} {s t : State} (hi : i.issuer = .sequencer) (hrun : s.st = .running)
    (h : exec i s = .next t) : Transition s.st t.st := by
  by_cases hrelease : i = .release
  · subst hrelease
    rw [hrun, st_of_exec_release h]
    exact .release
  · rw [(stageFrame_of_exec hi h).st hrelease]
    exact .stay s.st

/-- Settles O49: each kind of step is one row of the table of 44_driver R215, or keeps ST. -/
theorem driverStateTransitions : Obligations.DriverStateTransitions := by
  intro s t hstep
  constructor
  · intro hreset
    obtain ⟨sent, resumed, rest, hin⟩ := exists_head_of_resetNext hreset
    obtain rfl : _ = t := by simpa [step_of_reset hin] using hstep
    rfl
  · intro hreset
    cases move_of_step hstep with
    | environment => exact .stay s.st
    | reset sent resumed rest head => simp [resetNext_of_head head] at hreset
    | initError len rest e hidle => rw [hidle]; exact .initErr
    | initOk len rest hidle => rw [hidle]; exact .initOk
    | run rest hready => rw [hready]; exact .run
    | stage i t heng hrun hcode hi hexec => exact transition_of_exec (s := s.taken) hi hrun hexec

/-- The table of 44_driver R211: the stage operations that may follow a stage operation while the loop runs. -/
inductive Successor : Instr → Instr → Prop where
  | chunk : Successor .fetch .demod
  | endOfStream : Successor .fetch .release
  | demod : Successor .demod .rfft
  | rfft : Successor .rfft .mask
  | mask : Successor .mask .irfft
  | irfft : Successor .irfft .decim
  | decim : Successor .decim .emit
  | emit : Successor .emit .fetch

/-- Only FETCH and EMIT can keep STAGE, each while it waits for its port. -/
theorem stage_of_exec {i : Instr} {s t : State} (hi : i.issuer = .sequencer) (h : exec i s = .next t)
    (hrun : t.st = .running) : t.stage = s.stage ∨ ∃ j, Successor i j ∧ t.stage = opcode j := by
  cases i with
  | init | run => cases hi
  | fetch =>
    obtain rfl | ⟨a, rest, b, bytes, iq, -, -, -, -, rfl⟩ | ⟨a, rest, b, -, -, -, rfl⟩ := fetch_next h
    · exact .inl rfl
    · exact .inr ⟨.demod, .chunk, rfl⟩
    · exact .inr ⟨.release, .endOfStream, rfl⟩
  | demod => obtain ⟨b, samples, ph, -, -, -, rfl⟩ := demod_next h; exact .inr ⟨.rfft, .demod, rfl⟩
  | rfft => obtain ⟨b, xs, ys, -, -, -, -, rfl⟩ := rfft_next h; exact .inr ⟨.mask, .rfft, rfl⟩
  | mask => obtain ⟨b, xs, ys, -, -, -, rfl⟩ := mask_next h; exact .inr ⟨.irfft, .mask, rfl⟩
  | irfft => obtain ⟨b, xs, ys, -, -, -, -, rfl⟩ := irfft_next h; exact .inr ⟨.decim, .irfft, rfl⟩
  | decim => obtain ⟨b, xs, ys, -, -, -, rfl⟩ := decim_next h; exact .inr ⟨.emit, .decim, rfl⟩
  | emit =>
    obtain rfl | ⟨b, out, -, -, rfl⟩ := emit_next h
    · exact .inl rfl
    · exact .inr ⟨.fetch, .emit, rfl⟩
  | release => simp [st_of_exec_release h] at hrun

/-- Settles O50: of the steps that stay in RUNNING, only the sequencer's turn writes STAGE, with a successor's code. -/
theorem stageSuccessors : Obligations.StageSuccessors := by
  intro s t hstep hrun hrun'
  cases move_of_step hstep with
  | environment => exact .inl rfl
  | reset | initError | initOk => simp at hrun'
  | run rest hready => simp [hrun] at hready
  | stage i t heng _ hcode hi hexec =>
    obtain hstay | ⟨j, hsucc, hnext⟩ := stage_of_exec hi hexec hrun'
    · exact .inl hstay
    · rw [hcode, hnext]
      cases hsucc <;> simp

/-- Settles O56: neither INIT nor RUN nor the sequencer has an operation there, so a step touches the environment only. -/
theorem doneAndFaultAreTerminal : Obligations.DoneAndFaultAreTerminal := by
  intro s hst hreset
  have hrun : s.st ≠ .running := by rintro h; simp [h] at hst
  obtain ⟨t, hstep⟩ := step_answers fun h => hrun h.2
  refine ⟨t, hstep, ?_⟩
  cases move_of_step hstep with
  | environment => exact ⟨rfl, rfl⟩
  | reset sent resumed rest head => simp [resetNext_of_head head] at hreset
  | initError len rest e hidle => simp [hidle] at hst
  | initOk len rest hidle => simp [hidle] at hst
  | run rest hready => simp [hready] at hst
  | stage i t heng hrunning => exact absurd hrunning hrun

end Sys2Proof.Machine

/-! Runs of several steps: one chunk, a whole run from FETCH, and the run from reset (44_driver R220). -/

namespace Sys2Proof.Machine

open Sys2Proof.Config

/-! ## Steps with no input in the script -/

theorem taken_of_no_input {s : State} (hin : s.inputs = []) : s.taken = s := by
  rw [State.taken, hin, List.tail_nil, ← hin]

theorem engineNext_of_no_input {s : State} (hin : s.inputs = []) : engineNext s = true := by
  rw [engineNext, hin]

/-- A run whose first step is the stage operation `i`. -/
theorem run_of_stage {s t : State} {i : Instr} {k : Nat} {o : Host.Outcome State Fault Refusal} (hin : s.inputs = [])
    (hrun : s.st = .running) (hi : i.issuer = .sequencer) (hcode : s.stage = opcode i) (hexec : exec i s = .next t)
    (hk : Sys2Proof.core.run k t = o) : Sys2Proof.core.run (k + 1) s = o := by
  refine run_succ ?_ hk
  rw [step_of_stage (engineNext_of_no_input hin) hrun hi hcode, taken_of_no_input hin, hexec]

/-- Outside RUNNING, with nothing from the outside, the machine rests. -/
theorem run_of_resting {s : State} (hin : s.inputs = []) (hst : s.st ≠ .running) :
    ∀ k : Nat, Sys2Proof.core.run k s = .next s
  | 0 => rfl
  | k + 1 => by
    refine run_succ ?_ (run_of_resting hin hst k)
    rw [sequencerRestsOutsideRunning s (engineNext_of_no_input hin) hst, taken_of_no_input hin]

/-! ## One chunk -/

/-- The loop stands at FETCH with its buffers, and nothing from the outside is to come but answers to the fills. -/
structure AtFetch (s : State) (b : Buffers) : Prop where
  st : s.st = .running
  stage : s.stage = opcode .fetch
  inputs : s.inputs = []
  sinkReady : s.sinkReady = true
  planValid : s.planValid = true
  configured : Configured s
  bufs : s.bufs = some b
  shaped : Shaped s b

/-- The state at the loop's next FETCH: `result`, an output and the sample to carry, delivered to the sink and to PREV, `source` the
answers left and `b` the buffers. -/
def State.deliver (s : State) (result : List Byte × (Int × Int)) (source : List FillAnswer) (b : Buffers) : State :=
  { s.setPrev result.2 with sink := s.sink ++ result.1, source := source, bufs := some b }

theorem deliver_deliver (s : State) (r r' : List Byte × (Int × Int)) (src src' : List FillAnswer) (b b' : Buffers) :
    (s.deliver r src b).deliver r' src' b' = s.deliver (r.1 ++ r'.1, r'.2) src' b' := by
  simp only [State.deliver, State.setPrev, List.append_assoc]

theorem deliver_prev {s : State} {r : List Byte × (Int × Int)} {src : List FillAnswer} {b : Buffers}
    (h : InSampleRange r.2) : (s.deliver r src b).prev = r.2 :=
  setPrev_prev (s := s) h

/-- No output, and the sample that is in PREV: FETCH is where it was. -/
theorem AtFetch.deliver_nil {s : State} {b : Buffers} (h : AtFetch s b) : s.deliver ([], s.prev) s.source b = s := by
  simp only [State.deliver, State.setPrev, State.prev, List.append_nil, BitVec.ofInt_toInt, ← h.bufs]

theorem AtFetch.deliver {s : State} {b b' : Buffers} (h : AtFetch s b) (hshaped : Shaped s b')
    (r : List Byte × (Int × Int)) (src : List FillAnswer) : AtFetch (s.deliver r src b') b' :=
  ⟨h.st, h.stage, h.inputs, h.sinkReady, h.planValid, h.configured.congr rfl rfl rfl rfl, rfl, hshaped.congr rfl rfl rfl⟩

/-- The buffers once the chunk `bytes` has passed through all of them (10_state R32 to R37). -/
def chunkBuffers (o : NumOps Code) (N : Nat) (prev : Int × Int) (bytes : List Byte) : Buffers :=
  let ph := phases o prev (samplesOf bytes)
  let spec := rfftList o N ph
  let fspec := maskList o N (cutoffOf N) spec
  let fsig := irfftList o N fspec
  { iq := bytes.map some
    ph := ph.map some
    spec := spec.map some
    fspec := fspec.map some
    fsig := fsig.map some
    obuf := (chunkSamples o N ph).map some }

theorem chunk_length {V : Type} (o : NumOps V) (N : Nat) (prev : Int × Int) (bytes : List Byte) :
    (chunk o N prev bytes).1.length = 2 * noutOf N := by
  rw [chunk, serialise_length, chunkSamples, decimList_length]

theorem AtFetch.length_of_chunk {s : State} {b : Buffers} {bytes : List Byte} (h : AtFetch s b)
    (hlen : bytes.length = s.chunkLen.toNat) : bytes.length = 2 * s.nReg.toNat := by
  obtain ⟨hL, -⟩ := h.configured.derived_sizes
  rw [hlen, hL]

theorem AtFetch.shaped_chunkBuffers {s : State} {b : Buffers} {bytes : List Byte} (h : AtFetch s b) (o : NumOps Code)
    (prev : Int × Int) (hlen : bytes.length = s.chunkLen.toNat) : Shaped s (chunkBuffers o s.nReg.toNat prev bytes) := by
  have hsamples := samplesOf_length _ _ (h.length_of_chunk hlen)
  constructor <;> simp [chunkBuffers, chunkSamples, hlen, hsamples, h.configured.noutReg_eq]

/-- The seven stage operations of one chunk, each on what the one before has written (44_driver R211). -/
theorem AtFetch.run_chunk {s : State} {b : Buffers} {bytes : List Byte} {rest : List FillAnswer} (h : AtFetch s b)
    (hsrc : s.source = .obtained bytes :: rest) (hlen : bytes.length = s.chunkLen.toNat) :
    Sys2Proof.core.run 7 s = .next (s.deliver (chunk numOps s.nReg.toNat s.prev bytes) rest
      (chunkBuffers numOps s.nReg.toNat s.prev bytes)) := by
  have hN := h.length_of_chunk hlen
  have hnout := h.configured.noutReg_eq
  obtain ⟨-, hpos, -⟩ := h.configured.derived_sizes
  refine run_of_stage h.inputs h.st rfl h.stage
    (exec_fetch_of_chunk hsrc h.bufs (fillResult_of_length hlen) (hlen.trans h.shaped.iq_len.symm)) ?_
  refine run_of_stage h.inputs h.st rfl rfl (exec_demod_of_written rfl rfl hN h.shaped.ph_len) ?_
  refine run_of_stage h.inputs h.st rfl rfl
    (exec_rfft_of_written h.planValid rfl rfl (by simp [samplesOf_length _ _ hN]) h.shaped.spec_len) ?_
  refine run_of_stage h.inputs h.st rfl rfl
    (exec_mask_of_written rfl rfl (rfftList_length _ _ _) h.configured.cutoffReg_eq h.shaped.fspec_len) ?_
  refine run_of_stage h.inputs h.st rfl rfl
    (exec_irfft_of_written h.planValid rfl rfl (maskList_length _ _ _ _) h.shaped.fsig_len) ?_
  refine run_of_stage h.inputs h.st rfl rfl
    (exec_decim_of_written rfl rfl (irfftList_length _ _ _) hpos hnout h.shaped.obuf_len) ?_
  refine run_of_stage h.inputs h.st rfl rfl (exec_emit_of_written h.sinkReady rfl rfl (decimList_length _ _ _ _)) ?_
  -- The state after EMIT is the one claimed, STAGE back at FETCH and NOUT the one derived from N.
  simp only [Host.Core.run, State.advance, State.deliver, State.setPrev, State.sinkAppend, State.prev, chunk, chunkBuffers,
    chunkSamples, lowPass, hnout, h.stage]

/-- Settles O57: the buffers are those through which the chunk has passed. -/
theorem chunkInSevenSteps : Obligations.ChunkInSevenSteps := by
  intro s b bytes rest hst hstage hin hready hplan hconf hb hshaped hsrc hlen
  have h : AtFetch s b := ⟨hst, hstage, hin, hready, hplan, hconf, hb, hshaped⟩
  refine ⟨_, h.shaped_chunkBuffers numOps s.prev hlen, h.run_chunk hsrc hlen, ?_⟩
  rw [chunk_length, hconf.noutReg_eq]

/-! ## The whole run -/

/-- One complex sample is enough for PREV to be one of the input, whatever it was before. -/
theorem chunk_inSampleRange {V : Type} (o : NumOps V) (N : Nat) (prev : Int × Int) :
    ∀ {bytes : List Byte}, 2 ≤ bytes.length → InSampleRange (chunk o N prev bytes).2
  | [], h => by simp at h
  | [_], h => by simp at h
  | i :: q :: rest, _ =>
    lastSample_inSampleRange rest (component i, component q) ⟨component_range i, component_range q⟩

theorem chunks_inSampleRange {V : Type} (o : NumOps V) (N : Nat) : ∀ (prev : Int × Int) (input : List (List Byte)),
    InSampleRange prev → InSampleRange (chunks o N prev input).2
  | _, [], h => h
  | prev, bytes :: rest, h => chunks_inSampleRange o N _ rest (lastSample_inSampleRange bytes prev h)

/-- The loop over answers that are all full chunks, seven steps each, up to the FETCH that takes the answer after them. -/
theorem AtFetch.run_chunks {tail : List FillAnswer} : ∀ {input : List (List Byte)} {s : State} {b : Buffers}, AtFetch s b →
    (∀ x ∈ input, x.length = s.chunkLen.toNat) → s.source = input.map .obtained ++ tail →
    ∃ b', Shaped s b' ∧ Sys2Proof.core.run (7 * input.length) s =
      .next (s.deliver (chunks numOps s.nReg.toNat s.prev input) tail b')
  | [], s, b, h, _, hsrc => by
    obtain rfl : s.source = tail := hsrc
    exact ⟨b, h.shaped, congrArg Host.Outcome.next h.deliver_nil.symm⟩
  | bytes :: input, s, b, h, hlen, hsrc => by
    have hbytes : bytes.length = s.chunkLen.toNat := hlen bytes List.mem_cons_self
    obtain ⟨hL, hN, -⟩ := h.configured.derived_sizes
    have hprev := chunk_inSampleRange numOps s.nReg.toNat s.prev (bytes := bytes) (by omega)
    have hfirst := h.run_chunk hsrc hbytes
    have hnext := h.deliver (h.shaped_chunkBuffers numOps s.prev hbytes) (chunk numOps s.nReg.toNat s.prev bytes)
      (input.map .obtained ++ tail)
    obtain ⟨b', hshaped, hrest⟩ := hnext.run_chunks (fun x hx => hlen x (List.mem_cons_of_mem _ hx)) rfl
    rw [deliver_deliver, deliver_prev hprev] at hrest
    refine ⟨b', hshaped.congr rfl rfl rfl, ?_⟩
    rw [List.length_cons, Nat.mul_succ, Nat.add_comm]
    exact run_add hfirst hrest

/-- The state that end of stream leads to (44_driver R213, R214). -/
def State.finish (s : State) (rest : List FillAnswer) : State :=
  { s with
    st := .done, stage := 0, eos := true, planValid := false, bufs := none, source := rest, freeCount := s.freeCount + 1 }

/-- FETCH's failure, then RELEASE (44_driver R213, R214). -/
theorem AtFetch.run_end {s : State} {b : Buffers} {a : FillAnswer} {rest : List FillAnswer} (h : AtFetch s b)
    (hsrc : s.source = a :: rest) (hfill : fillResult s.chunkLen.toNat a = none) :
    Sys2Proof.core.run 2 s = .next (s.finish rest) := by
  refine run_of_stage h.inputs h.st rfl h.stage (exec_fetch_of_failure hsrc h.bufs hfill) ?_
  exact run_of_stage h.inputs h.st rfl rfl (exec_release _) rfl

/-- The whole run from FETCH; whatever the buffers hold at its end, RELEASE destroys them. -/
theorem AtFetch.run_to_done {s : State} {b : Buffers} {input : List (List Byte)} {a : FillAnswer} {rest : List FillAnswer}
    (h : AtFetch s b) (hlen : ∀ x ∈ input, x.length = s.chunkLen.toNat)
    (hfail : ∀ bytes, a = .obtained bytes → bytes.length ≠ s.chunkLen.toNat)
    (hsrc : s.source = input.map .obtained ++ a :: rest) :
    ∃ b', Sys2Proof.core.run (7 * input.length + 2) s =
      .next ((s.deliver (chunks numOps s.nReg.toNat s.prev input) (a :: rest) b').finish rest) := by
  obtain ⟨b', hshaped, hloop⟩ := h.run_chunks hlen hsrc
  exact ⟨b', run_add hloop ((h.deliver hshaped _ (a :: rest)).run_end rfl (fillResult_eq_none hfail))⟩

/-- Settles O58: the loop over the chunks, then FETCH's failure and RELEASE, after which no buffer is left. -/
theorem wholeRunReachesDone : Obligations.WholeRunReachesDone := by
  intro s b input a rest hst hstage hin hready hplan hconf hb hshaped hlen hfail hsrc
  have h : AtFetch s b := ⟨hst, hstage, hin, hready, hplan, hconf, hb, hshaped⟩
  obtain ⟨_, hrun⟩ := h.run_to_done hlen hfail hsrc
  exact hrun

/-! ## The run from reset -/

/-- INIT neither reads nor writes the script. -/
theorem initWith_inputs (cap : Capacity) (len : BitVec 28) (s : State) (rest : List Input) :
    initWith cap len { s with inputs := rest } = { initWith cap len s with inputs := rest } := by
  unfold initWith
  split_ifs <;> rfl

/-- The state once the whole script is taken. -/
def State.scriptTaken (s : State) : State := { s with inputs := [] }

/-- The host writes `INIT len` and then `RUN` (44_driver R220, log entry 13). -/
theorem run_of_init_run {s : State} {len : BitVec 28}
    (hin : s.inputs = [.ctlWrite 0 (0x1#4 ++ len), .ctlWrite 0 0x20000000#32]) :
    Sys2Proof.core.run 2 s = .next (startRun (initWith capacity len s.scriptTaken)) := by
  have hinit := (step_of_command hin (decode_encode (.init len))).trans (exec_init len _)
  rw [initWith_inputs] at hinit
  have hrun := (step_of_command (s := { initWith capacity len s with inputs := [.ctlWrite 0 0x20000000#32] }) rfl
    (decode_encode .run)).trans (exec_run _)
  rw [State.scriptTaken, initWith_inputs]
  exact run_succ hinit (run_succ hrun rfl)

/-- The loop's first state after an accepted `INIT len` (40_init R123, 44_driver R210). -/
def State.started (s : State) (len : BitVec 28) : State :=
  { ({ s with chunkLen := len } : State).configure (sizeN len.toNat) with st := .running, stage := opcode .fetch }

section
variable {s : State} {len : BitVec 28} (hidle : s.st = .idle) (hpos : len.toNat ≠ 0) (heven : len.toNat % 2 = 0)
include hidle hpos heven

theorem startRun_of_admitted (hadm : capacity.admits (sizeN len.toNat) = true) :
    startRun (initWith capacity len s) = s.started len := by
  rw [initWith_of_even hidle hpos heven, if_pos hadm, startRun_of_ready rfl, State.started]

theorem startRun_of_not_admitted (hadm : capacity.admits (sizeN len.toNat) ≠ true) :
    startRun (initWith capacity len s) = (({ s with chunkLen := len } : State).raiseError .res).refuseAccess := by
  rw [initWith_of_even hidle hpos heven, if_neg hadm, startRun_of_not_ready (by simp)]

end

theorem atFetch_started {s : State} {len : BitVec 28} (hready : s.sinkReady = true) (hpos : len.toNat ≠ 0)
    (heven : len.toNat % 2 = 0) : ∃ b, AtFetch (s.scriptTaken.started len) b := by
  have hconf := configured_configure (s := { s.scriptTaken with chunkLen := len }) hpos heven
  exact ⟨_, rfl, rfl, rfl, hready, rfl, hconf.congr rfl rfl rfl rfl, rfl, (shaped_freshBuffers hconf).congr rfl rfl rfl⟩

/-- Settles O59: the two commands lead to the loop's first FETCH, or to a FAULT in which the machine rests. -/
theorem runFromReset : Obligations.RunFromReset := by
  intro s len input a later hs hready hin hsrc hpos heven hlen hfail
  have hidle : s.scriptTaken.st = .idle := congrArg State.st hs
  have herr : s.err = .noError := congrArg State.err hs
  have hcmd : s.cmdErr = false := congrArg State.cmdErr hs
  have hprev : s.prev = (0, 0) := congrArg State.prev hs
  have hstart := run_of_init_run hin
  split_ifs with hadm
  · rw [startRun_of_admitted hidle hpos heven hadm] at hstart
    obtain ⟨b, hfetch⟩ := atFetch_started hready hpos heven
    obtain ⟨b', hrun⟩ := hfetch.run_to_done hlen hfail hsrc
    have hN : (s.scriptTaken.started len).nReg.toNat = len.toNat / 2 := hfetch.configured.n_eq
    have hseed : (s.scriptTaken.started len).prev = (0, 0) := hprev
    have hcarried := chunks_inSampleRange numOps (len.toNat / 2) (0, 0) input (by simp [InSampleRange])
    rw [hN, hseed] at hrun
    exact ⟨_, run_add hstart hrun, rfl, rfl, herr, hcmd, rfl, rfl, setPrev_prev (s := s) hcarried⟩
  · rw [startRun_of_not_admitted hidle hpos heven hadm] at hstart
    exact ⟨_, run_add hstart (run_of_resting rfl (by simp) _), rfl, rfl, rfl, rfl, rfl, rfl⟩

end Sys2Proof.Machine

/-! The exact integer side: components, the parts of the complex product, and narrowing (45_arithmetic R230, R231, R235). -/

namespace Sys2Proof.Machine

/-! ## The range of the product -/

/-- One product of two parts of samples: 128 is reached on the positive side alone (45_arithmetic R231). -/
theorem mul_component_range {x y : Int} (hx : -127 ≤ x ∧ x ≤ 128) (hy : -127 ≤ y ∧ y ≤ 128) :
    -16256 ≤ x * y ∧ x * y ≤ 16384 := by
  obtain ⟨hx₁, hx₂⟩ := hx
  obtain ⟨hy₁, hy₂⟩ := hy
  constructor <;> nlinarith

/-- The parts of the product of two samples of the input (45_arithmetic R231). -/
theorem product_range {s p : Int × Int} (hs : InSampleRange s) (hp : InSampleRange p) :
    |productRe s.1 s.2 p.1 p.2| ≤ 32768 ∧ |productIm s.1 s.2 p.1 p.2| ≤ 32640 := by
  obtain ⟨hrr, hrr'⟩ := mul_component_range hs.1 hp.1
  obtain ⟨hii, hii'⟩ := mul_component_range hs.2 hp.2
  obtain ⟨hir, hir'⟩ := mul_component_range hs.2 hp.1
  obtain ⟨hri, hri'⟩ := mul_component_range hs.1 hp.2
  unfold productRe productIm
  constructor <;> rw [abs_le] <;> constructor <;> linarith

/-- Settles O24: every part of the product is a sum or a difference of two products of components. -/
theorem productNeverOverflows : Obligations.ProductNeverOverflows := by
  refine ⟨component_range, rfl, rfl, rfl, fun a b c d ha hb hc hd => ⟨rfl, rfl, ?_, ?_⟩, rfl, rfl, rfl⟩
  · obtain ⟨hlo, hhi⟩ := mul_component_range ha hc
    exact abs_le.mpr ⟨by linarith, hhi⟩
  · exact product_range (s := (a, b)) (p := (c, d)) ⟨ha, hb⟩ ⟨hc, hd⟩

/-! ## Narrowing -/

theorem narrow_toInt (z : Int) : (narrow z).toInt = (z + 32768) % 65536 - 32768 := by
  unfold narrow wrap16
  exact BitVec.toInt_ofInt_eq_self (by decide) (by norm_num; omega) (by norm_num; omega)

theorem narrow_toNat (z : Int) : (narrow z).toNat = (z % 65536).toNat := by
  rw [narrow, wrap16, BitVec.toNat_ofInt]
  norm_num

/-- Settles O41: narrowing is the residue of `z` modulo 65536 in -32768 .. 32767. -/
theorem narrowingWraps : Obligations.NarrowingWraps := by
  refine fun z => ⟨narrow_toInt z, narrow_toNat z, fun hlo hhi => ?_, ?_, rfl, rfl, rfl⟩
  · rw [narrow_toInt]
    omega
  · rw [← BitVec.toInt_inj, narrow_toInt, narrow_toInt]
    omega

/-- Integers next to each other narrow to patterns next to each other, or to the two ends of the range (45_arithmetic R240 (b)). -/
theorem narrow_toInt_close {z z' : Int} (h : |z - z'| ≤ 1) :
    |(narrow z).toInt - (narrow z').toInt| ≤ 1 ∨ |(narrow z).toInt - (narrow z').toInt| = 65535 := by
  rw [abs_le] at h
  rw [narrow_toInt, narrow_toInt, abs_le, abs_eq (by decide)]
  omega

end Sys2Proof.Machine

/-! Truncation toward zero (45_arithmetic R234). -/

namespace Sys2Proof.Machine

section
variable {x y : ℝ} {k : ℤ}

/-! ## Sign and magnitude -/

theorem truncReal_of_nonneg (h : 0 ≤ x) : truncReal x = ⌊x⌋ := if_pos h

theorem truncReal_of_neg (h : x < 0) : truncReal x = -⌊-x⌋ := if_neg h.not_ge

theorem truncReal_zero : truncReal 0 = 0 := (truncReal_of_nonneg le_rfl).trans Int.floor_zero

theorem truncReal_neg (x : ℝ) : truncReal (-x) = -truncReal x := by
  obtain h | rfl | h := lt_trichotomy x 0
  · rw [truncReal_of_neg h, truncReal_of_nonneg (neg_nonneg.mpr h.le), neg_neg]
  · rw [neg_zero, truncReal_zero, neg_zero]
  · rw [truncReal_of_nonneg h.le, truncReal_of_neg (neg_lt_zero.mpr h), neg_neg]

theorem truncReal_eq_sign_mul_floor (x : ℝ) : truncReal x = (SignType.sign x : Int) * ⌊|x|⌋ := by
  obtain h | rfl | h := lt_trichotomy x 0
  · simp [truncReal_of_neg h, sign_neg h, abs_of_neg h]
  · simp [truncReal_zero]
  · simp [truncReal_of_nonneg h.le, sign_pos h, abs_of_pos h]

theorem truncReal_intCast (z : ℤ) : truncReal (z : ℝ) = z := by
  rcases le_or_gt 0 (z : ℝ) with h | h
  · rw [truncReal_of_nonneg h, Int.floor_intCast]
  · rw [truncReal_of_neg h, ← Int.cast_neg, Int.floor_intCast, neg_neg]

theorem abs_truncReal (x : ℝ) : |truncReal x| = ⌊|x|⌋ := by
  have hfloor : ∀ {y : ℝ}, 0 ≤ y → |⌊y⌋| = ⌊y⌋ := fun h => abs_of_nonneg (Int.floor_nonneg.mpr h)
  rcases le_or_gt 0 x with h | h
  · rw [truncReal_of_nonneg h, abs_of_nonneg h, hfloor h]
  · rw [truncReal_of_neg h, abs_neg, abs_of_neg h, hfloor (neg_nonneg.mpr h.le)]

/-- Settles O40: the magnitude of `trunc(x)` is `floor(|x|)`, its sign that of `x`. -/
theorem truncationLaws : Obligations.TruncationLaws := by
  refine ⟨truncReal_neg, truncReal_intCast, fun x => ?_, truncReal_eq_sign_mul_floor, truncReal_zero, ?_, ?_, ?_, ?_⟩
  · rw [← Int.cast_abs, abs_truncReal]
    exact ⟨Int.floor_le _, Int.lt_floor_add_one _⟩
  all_goals norm_num [truncReal, Int.floor_eq_iff]

/-! ## The boundaries of truncation -/

/-- Above 0 truncation is the floor, and 0 is no boundary. -/
theorem le_truncReal_iff (hk : 0 < k) : k ≤ truncReal x ↔ (k : ℝ) ≤ x := by
  have hk' : (0 : ℝ) < k := by exact_mod_cast hk
  rcases le_or_gt 0 x with h | h
  · rw [truncReal_of_nonneg h, Int.le_floor]
  · have hfloor : 0 ≤ ⌊-x⌋ := Int.floor_nonneg.mpr (neg_nonneg.mpr h.le)
    rw [truncReal_of_neg h]
    exact iff_of_false (by omega) (by linarith)

theorem truncReal_le_iff (hk : k < 0) : truncReal x ≤ k ↔ x ≤ k := by
  have h := le_truncReal_iff (x := -x) (neg_pos.mpr hk)
  rwa [truncReal_neg, neg_le_neg_iff, Int.cast_neg, neg_le_neg_iff] at h

/-- Truncation grows only across a non-zero integer (45_arithmetic R240 (b)). -/
theorem exists_boundary_of_truncReal_lt (h : truncReal x < truncReal y) :
    ∃ k : ℤ, k ≠ 0 ∧ x ≤ k ∧ (k : ℝ) ≤ y := by
  rcases lt_or_ge 0 (truncReal y) with hy | hy
  · exact ⟨_, hy.ne', (not_le.mp (mt (le_truncReal_iff hy).mpr h.not_ge)).le, (le_truncReal_iff hy).mp le_rfl⟩
  · have hx := h.trans_le hy
    exact ⟨_, hx.ne, (truncReal_le_iff hx).mp le_rfl, (not_le.mp (mt (truncReal_le_iff hx).mpr h.not_ge)).le⟩

/-- A number no farther from `v` than the margin truncates to the same integer. -/
theorem truncReal_eq_of_clear {e v w : ℝ} (hclear : ClearOfBoundaries e v) (hw : |w - v| ≤ e) : truncReal w = truncReal v := by
  obtain ⟨hlo, hhi⟩ := abs_le.mp hw
  obtain h | h | h := lt_trichotomy (truncReal w) (truncReal v)
  · obtain ⟨k, hk, hwk, hkv⟩ := exists_boundary_of_truncReal_lt h
    have hfar := hclear k hk
    rw [abs_of_nonneg (sub_nonneg.mpr hkv)] at hfar
    linarith
  · exact h
  · obtain ⟨k, hk, hvk, hkw⟩ := exists_boundary_of_truncReal_lt h
    have hfar := hclear k hk
    rw [abs_of_nonpos (sub_nonpos.mpr hvk)] at hfar
    linarith

theorem lt_truncReal_add_one (x : ℝ) : x < truncReal x + 1 := by
  rcases le_or_gt 0 x with h | h
  · rw [truncReal_of_nonneg h]
    exact Int.lt_floor_add_one x
  · have hfloor := Int.floor_le (-x)
    rw [truncReal_of_neg h, Int.cast_neg]
    linarith

theorem truncReal_sub_one_lt (x : ℝ) : truncReal x - 1 < x := by
  have h := lt_truncReal_add_one (-x)
  rw [truncReal_neg, Int.cast_neg] at h
  linarith

/-- Below 0 the integer lies above `x`, from 0 on above it lies below `y`: either way a gap of two leaves more than 1 between. -/
theorem truncReal_le_add_one (h : y ≤ x + 1) : truncReal y ≤ truncReal x + 1 := by
  by_contra! hgap
  have hgap' : (truncReal x : ℝ) + 2 ≤ truncReal y := by exact_mod_cast (by omega : truncReal x + 2 ≤ truncReal y)
  rcases lt_or_ge (truncReal x) 0 with hx | hx
  · have hxle := (truncReal_le_iff hx).mp le_rfl
    linarith [truncReal_sub_one_lt y]
  · have hley : (truncReal y : ℝ) ≤ y := (le_truncReal_iff (by omega)).mp le_rfl
    linarith [lt_truncReal_add_one x]

/-- Numbers at most 1 apart truncate to the same integer or to neighbours (45_arithmetic R240 (b)). -/
theorem truncReal_close (h : |x - y| ≤ 1) : |truncReal x - truncReal y| ≤ 1 := by
  obtain ⟨hlo, hhi⟩ := abs_le.mp h
  have hyx := truncReal_le_add_one (x := x) (y := y) (by linarith)
  have hxy := truncReal_le_add_one (x := y) (y := x) (by linarith)
  exact abs_le.mpr ⟨by linarith, by linarith⟩

end

end Sys2Proof.Machine

/-! ARG2 as the argument of a complex number, and what follows of it (45_arithmetic R236, 41_demod R143, R149). -/

namespace Sys2Proof.Machine

/-! ## The angle in the half-planes -/

section
variable {x y : ℝ}

theorem arg_of_re_pos (h : 0 < x) : Complex.arg ⟨x, y⟩ = Real.arctan (y / x) := by
  obtain ⟨hlo, hhi⟩ := abs_lt.mp (Complex.abs_arg_lt_pi_div_two_iff.mpr (.inl h : 0 < (⟨x, y⟩ : ℂ).re ∨ _))
  rw [← Real.arctan_tan hlo hhi, Complex.tan_arg]

/-- The opposite number lies in the right half-plane and has the same quotient. -/
theorem arg_neg_of_re_neg (h : x < 0) : Complex.arg (-⟨x, y⟩) = Real.arctan (y / x) :=
  (arg_of_re_pos (neg_pos.mpr h)).trans (congrArg Real.arctan (neg_div_neg_eq y x))

theorem arg_of_re_neg_of_im_nonneg (hx : x < 0) (hy : 0 ≤ y) :
    Complex.arg ⟨x, y⟩ = Real.arctan (y / x) + Real.pi := by
  have hturn : Complex.arg (-⟨x, y⟩) = Complex.arg ⟨x, y⟩ - Real.pi :=
    Complex.arg_neg_eq_arg_sub_pi_iff.mpr (hy.lt_or_eq.imp id fun h => ⟨h.symm, hx⟩)
  rw [← arg_neg_of_re_neg hx, hturn, sub_add_cancel]

theorem arg_of_re_neg_of_im_neg (hx : x < 0) (hy : y < 0) :
    Complex.arg ⟨x, y⟩ = Real.arctan (y / x) - Real.pi := by
  have hturn : Complex.arg (-⟨x, y⟩) = Complex.arg ⟨x, y⟩ + Real.pi :=
    Complex.arg_neg_eq_arg_add_pi_of_im_neg hy
  rw [← arg_neg_of_re_neg hx, hturn, add_sub_cancel_right]

theorem arg_of_im_pos_of_re_zero (hy : 0 < y) : Complex.arg ⟨0, y⟩ = Real.pi / 2 :=
  Complex.arg_eq_pi_div_two_iff.mpr ⟨rfl, hy⟩

theorem arg_of_im_neg_of_re_zero (hy : y < 0) : Complex.arg ⟨0, y⟩ = -(Real.pi / 2) :=
  Complex.arg_eq_neg_pi_div_two_iff.mpr ⟨rfl, hy⟩

end

/-- Settles O25: each case of ARG2 is a half-plane, a half of the imaginary axis, or zero. -/
theorem angleIsArgument : Obligations.AngleIsArgument := by
  intro im re
  unfold arg2Exact
  split_ifs with hzero hright hleft hupper hupper
  · obtain ⟨rfl, rfl⟩ := hzero
    simp only [Int.cast_zero]
    exact Complex.arg_zero.symm
  · exact (arg_of_re_pos (by exact_mod_cast hright)).symm
  · exact (arg_of_re_neg_of_im_nonneg (by exact_mod_cast hleft) (by exact_mod_cast hupper)).symm
  · exact (arg_of_re_neg_of_im_neg (by exact_mod_cast hleft) (by exact_mod_cast not_le.mp hupper)).symm
  · obtain rfl : re = 0 := by omega
    rw [Int.cast_zero]
    exact (arg_of_im_pos_of_re_zero (by exact_mod_cast hupper)).symm
  · obtain rfl : re = 0 := by omega
    have hlower : im < 0 := by omega
    rw [Int.cast_zero]
    exact (arg_of_im_neg_of_re_zero (by exact_mod_cast hlower)).symm

/-! ## The laws of the argument -/

theorem arg2Exact_eq_pi_iff {im re : Int} : arg2Exact im re = Real.pi ↔ re < 0 ∧ im = 0 := by
  rw [angleIsArgument, Complex.arg_eq_pi_iff, Int.cast_lt_zero, Int.cast_eq_zero]

/-- Negating the imaginary part conjugates (41_demod R149 (c)). -/
theorem arg2Exact_neg {im re : Int} (h : ¬(im = 0 ∧ re < 0)) : arg2Exact (-im) re = -arg2Exact im re := by
  have hconj : (⟨(re : ℝ), ((-im : Int) : ℝ)⟩ : ℂ) = (starRingEnd ℂ) ⟨(re : ℝ), (im : ℝ)⟩ := by
    simp [Complex.ext_iff]
  have hne : Complex.arg ⟨(re : ℝ), (im : ℝ)⟩ ≠ Real.pi := fun hpi =>
    h (arg2Exact_eq_pi_iff.mp ((angleIsArgument im re).trans hpi)).symm
  rw [angleIsArgument, angleIsArgument, hconj, Complex.arg_conj, if_neg hne]

theorem arg2Exact_mul {t : Int} (ht : 0 < t) (im re : Int) : arg2Exact (t * im) (t * re) = arg2Exact im re := by
  have hscale : (⟨((t * re : Int) : ℝ), ((t * im : Int) : ℝ)⟩ : ℂ) = ((t : ℝ) : ℂ) * ⟨(re : ℝ), (im : ℝ)⟩ := by
    simp [Complex.ext_iff]
  rw [angleIsArgument, angleIsArgument, hscale, Complex.arg_real_mul _ (by exact_mod_cast ht)]

/-- Exchanging the two samples conjugates their product (41_demod R149 (a)). -/
theorem product_swap (a b c d : Int) :
    productRe c d a b = productRe a b c d ∧ productIm c d a b = -productIm a b c d := by
  unfold productRe productIm
  constructor <;> ring

/-- Settles O26: ARG2 is the argument, whose laws under conjugation and positive factors are Mathlib's. -/
theorem angleReflectionLaws : Obligations.AngleReflectionLaws :=
  ⟨fun _ _ => arg2Exact_neg, fun _ hre => arg2Exact_eq_pi_iff.mpr ⟨hre, rfl⟩, fun _ im re ht => arg2Exact_mul ht im re,
    product_swap⟩

end Sys2Proof.Machine

/-! The samples of a chunk by index, and the chunk of bytes 127, which is silent under every numerics (45_arithmetic R240 (c)). -/

namespace Sys2Proof.Machine

/-! ## The samples of a chunk by index -/

section
variable {V : Type} (o : NumOps V) {N m : Nat} (ph : List V)

/-- Each sample of an Output Chunk is a narrowed integer (43_decim R190, R194). -/
theorem chunkSamples_eq_map : chunkSamples o N ph = (List.range (noutOf N)).map fun m => narrow (scaledSample o N ph m) := rfl

theorem chunkSamples_getElem? (hm : m < noutOf N) : (chunkSamples o N ph)[m]? = some (narrow (scaledSample o N ph m)) := by
  rw [chunkSamples_eq_map, List.getElem?_map, List.getElem?_range hm, Option.map_some]

theorem lowPass_getD {i : Nat} (hi : i < N) :
    (lowPass o N ph).getD i o.zero = filteredAt o N (fun n => ph.getD n.val o.zero) ⟨i, hi⟩ := by
  rw [lowPass_eq_ofFn, List.getD_eq_getElem?_getD, List.getElem?_ofFn, dif_pos hi, Option.getD_some]

/-- The integer of sample `m` is that of the filtered signal at index `5 m` (43_decim R190). -/
theorem scaledSample_eq_scale (hN : 1 ≤ N) (hm : m < noutOf N) :
    scaledSample o N ph m =
      o.scale N (filteredAt o N (fun n => ph.getD n.val o.zero) ⟨decimIndex m, decimIndex_bound N m hN hm⟩) :=
  congrArg (o.scale N) (lowPass_getD o ph _)

end

/-! ## The silent chunk -/

theorem component_bias : component 127#8 = 0 := rfl

/-- Bytes 127 are zero samples (30_encoding R101). -/
theorem samplesOf_silent : ∀ N : Nat, samplesOf (List.replicate (2 * N) 127#8) = List.replicate N (0, 0)
  | 0 => rfl
  | N + 1 => by
    have htail := samplesOf_silent N
    rw [Nat.mul_succ]
    simp only [List.replicate_succ, samplesOf, component_bias, htail]

theorem lastSample_replicate (s : Int × Int) : ∀ {N : Nat} (prev : Int × Int), 1 ≤ N →
    lastSample prev (List.replicate N s) = s
  | 1, _, _ => rfl
  | N + 2, _, _ => lastSample_replicate s (N := N + 1) s (Nat.le_add_left 1 N)

/-- Zero samples give zero phases, the first one too, whatever goes before it (N-ARG0, 41_demod R147). -/
theorem phases_silent {V : Type} (num : Numerics V) : ∀ (N : Nat) (prev : Int × Int),
    phases num.toNumOps prev (List.replicate N (0, 0)) = List.replicate N num.zero
  | 0, _ => rfl
  | N + 1, prev => by
    obtain ⟨hre, him⟩ := product_eq_zero_iff (c := prev.1) (d := prev.2).mpr (.inl ⟨rfl, rfl⟩)
    simp only [List.replicate_succ, phases, hre, him, num.arg2_zero, phases_silent num N]

/-- Zero phases give a zero spectrum, whose bins MASK passes, conjugates or leaves out (N-FZERO). -/
theorem maskedAt_silent {V : Type} (num : Numerics V) {N : Nat} (k : Fin N) :
    maskedAt num.toNumOps N (fun _ => num.zero) k = (num.zero, num.zero) ∨
      maskedAt num.toNumOps N (fun _ => num.zero) k = (num.zero, num.neg num.zero) := by
  have hspec : ∀ i, spectrumAt num.toNumOps N (fun _ => num.zero) i = (num.zero, num.zero) := fun i => by
    unfold spectrumAt
    split_ifs
    · exact num.rfft_zero N k.pos _
    · rfl
  rw [maskedAt]
  cases hsrc : binSource N (cutoffOf N) k.val with
  | pass i => exact .inl ((maskBin_of_pass hsrc).trans (hspec i))
  | mirror i => exact .inr ((maskBin_of_mirror hsrc).trans (congrArg num.conj (hspec i)))
  | zero => exact .inl (maskBin_of_zero hsrc)

/-- IRFFT makes of those bins a signal that stands for 0 (N-IZERO, log entry 2). -/
theorem filteredAt_silent {V : Type} (num : Numerics V) {N : Nat} (n : Fin N) :
    num.val (filteredAt num.toNumOps N (fun _ => num.zero) n) = 0 :=
  num.irfft_conjZero N n.pos _ (maskedAt_silent num) n

theorem chunkSamples_silent {V : Type} (num : Numerics V) {N : Nat} (hN : 1 ≤ N) :
    chunkSamples num.toNumOps N (List.replicate N num.zero) = List.replicate (noutOf N) 0#16 := by
  have hphase : (fun n : Fin N => (List.replicate N num.zero).getD n.val num.zero) = fun _ => num.zero :=
    funext fun n => by simp
  have hsample : ∀ m ∈ List.range (noutOf N),
      narrow (scaledSample num.toNumOps N (List.replicate N num.zero) m) = 0#16 := fun m hm => by
    rw [scaledSample_eq_scale _ _ hN (List.mem_range.mp hm), hphase, num.scale_zero N hN _ (filteredAt_silent num _)]
    rfl
  rw [chunkSamples_eq_map, List.map_congr_left hsample, List.map_const', List.length_range]

theorem serialise_silent : ∀ n : Nat, serialise (List.replicate n 0#16) = List.replicate (2 * n) 0#8
  | 0 => rfl
  | n + 1 => by
    rw [List.replicate_succ, serialise, serialise_silent n]
    rfl

/-- Settles O60: zero phases pass the filter as values that stand for 0, of which DECIM makes the sample 0 (N-SZERO). -/
theorem silentChunkIsAllZero : Obligations.SilentChunkIsAllZero := by
  intro V num N prev hN
  rw [chunk, samplesOf_silent, phases_silent, chunkSamples_silent num hN, serialise_silent, lastSample_replicate _ _ hN]

end Sys2Proof.Machine

/-! How far phase values and output samples are from the exact ones under any numerics (45_arithmetic R239, R240 (b)). -/

namespace Sys2Proof.Machine

/-! ## The phase values -/

/-- Every phase value is the angle of a product of two samples, whose parts are in range, under any primitives (45_arithmetic R231). -/
theorem phases_forall₂ {V W : Type} (o : NumOps V) (o' : NumOps W) : ∀ (bytes : List Byte) (prev : Int × Int), InSampleRange prev →
    List.Forall₂ (fun v w => ∃ im re : Int, ArgRange im re ∧ v = o.arg2 im re ∧ w = o'.arg2 im re)
      (phases o prev (samplesOf bytes)) (phases o' prev (samplesOf bytes))
  | [], _, _ => .nil
  | [_], _, _ => .nil
  | i :: q :: rest, prev, hprev => by
    have hsample : InSampleRange (component i, component q) := ⟨component_range i, component_range q⟩
    obtain ⟨hre, him⟩ := product_range hsample hprev
    exact .cons ⟨_, _, ⟨him.trans (by norm_num), hre⟩, rfl, rfl⟩ (phases_forall₂ o o' rest _ hsample)

/-- The phase values of a whole chunk, by index. -/
theorem phases_getD {V W : Type} (o : NumOps V) (o' : NumOps W) {N : Nat} {bytes : List Byte} {prev : Int × Int}
    (hlen : bytes.length = 2 * N) (hprev : InSampleRange prev) (n : Fin N) :
    ∃ im re : Int, ArgRange im re ∧ (phases o prev (samplesOf bytes)).getD n.val o.zero = o.arg2 im re ∧
      (phases o' prev (samplesOf bytes)).getD n.val o'.zero = o'.arg2 im re := by
  have hN := samplesOf_length N bytes hlen
  have hv : n.val < (phases o prev (samplesOf bytes)).length := by rw [phases_length, hN]; exact n.isLt
  have hw : n.val < (phases o' prev (samplesOf bytes)).length := by rw [phases_length, hN]; exact n.isLt
  rw [List.getD_eq_getElem _ _ hv, List.getD_eq_getElem _ _ hw]
  exact (phases_forall₂ o o' bytes prev hprev).get hv hw

/-! ## The exact transforms of nearby inputs -/

theorem norm_unitRoot (t : ℝ) : ‖unitRoot t‖ = 1 := by
  have hunit : unitRoot t = Complex.exp ((2 * Real.pi * t : ℝ) * Complex.I) := by
    apply Complex.ext
    · rw [Complex.exp_ofReal_mul_I_re, unitRoot_re]
    · rw [Complex.exp_ofReal_mul_I_im, unitRoot_im]
  rw [hunit, Complex.norm_exp_ofReal_mul_I]

/-- A bin is a sum of `N` values, each off by at most `e` (log entry 24). -/
theorem dftExact_close {N : Nat} {x y : Fin N → ℝ} {e : ℝ} (h : ∀ n, |x n - y n| ≤ e) (k : Nat) :
    ‖dftExact N x k - dftExact N y k‖ ≤ N * e := by
  rw [dftExact, dftExact, ← Finset.sum_sub_distrib]
  calc ‖∑ n : Fin N, ((x n : ℂ) * _ - (y n : ℂ) * _)‖
    _ ≤ ∑ _n : Fin N, e := norm_sum_le_of_le _ fun n _ => by
      rw [← sub_mul, norm_mul, norm_unitRoot, mul_one, ← Complex.ofReal_sub, Complex.norm_real]
      exact h n
    _ = N * e := by rw [Finset.sum_const, Finset.card_fin, nsmul_eq_mul]

/-- A sample of the inverse transform is off by at most what its bins are off by together. -/
theorem idftExact_close {N : Nat} {F G : Fin N → ℂ} {e : Fin N → ℝ} (h : ∀ k, ‖F k - G k‖ ≤ e k) (n : Nat) :
    |idftExact N F n - idftExact N G n| ≤ ∑ k, e k := by
  rw [idftExact, idftExact, ← Complex.sub_re, ← Finset.sum_sub_distrib]
  refine (Complex.abs_re_le_norm _).trans (norm_sum_le_of_le _ fun k _ => ?_)
  rw [← sub_mul, norm_mul, norm_unitRoot, mul_one]
  exact h k

/-! ## The bins that MASK keeps -/

theorem binSource_ne_zero_iff {N cutoff k : Nat} :
    binSource N cutoff k ≠ .zero ↔ (1 ≤ k ∧ k < cutoff) ∨ (N < k + cutoff ∧ k < N) := by
  unfold binSource
  split_ifs with hpass hmirror
  · exact iff_of_true nofun (.inl hpass)
  · exact iff_of_true nofun (.inr hmirror)
  · exact iff_of_false (fun h => h rfl) (by tauto)

/-- `CUTOFF - 1` bins pass, and as many mirror them (42_lpf R165). -/
theorem card_bins_kept (N : Nat) :
    ((Finset.range N).filter fun k => binSource N (cutoffOf N) k ≠ .zero).card = 2 * (cutoffOf N - 1) := by
  have hcut := two_mul_cutoffOf_le N
  have hkept : (Finset.range N).filter (fun k => binSource N (cutoffOf N) k ≠ .zero) =
      Finset.Ico 1 (cutoffOf N) ∪ Finset.Ico (N + 1 - cutoffOf N) N := by
    ext k
    simp only [Finset.mem_filter, Finset.mem_range, Finset.mem_union, Finset.mem_Ico, binSource_ne_zero_iff]
    omega
  have hdisjoint : Disjoint (Finset.Ico 1 (cutoffOf N)) (Finset.Ico (N + 1 - cutoffOf N) N) :=
    Finset.disjoint_left.mpr fun k hpass hmirror => by
      rw [Finset.mem_Ico] at hpass hmirror
      omega
  rw [hkept, Finset.card_union_of_disjoint hdisjoint, Nat.card_Ico, Nat.card_Ico]
  omega

theorem sum_bins_kept (N : Nat) (e : ℝ) :
    (∑ k : Fin N, if binSource N (cutoffOf N) k.val ≠ .zero then e else 0) = 2 * ((cutoffOf N - 1 : Nat) : ℝ) * e := by
  rw [Fin.sum_univ_eq_sum_range fun k => if binSource N (cutoffOf N) k ≠ .zero then e else 0, ← Finset.sum_filter,
    Finset.sum_const, card_bins_kept, nsmul_eq_mul, Nat.cast_mul, Nat.cast_two]

/-! ## From phase values to the filtered signal -/

theorem cval_conj {W : Type} {o : NumOps W} {val : W → ℝ} {z : W × W} (h : val (o.neg z.2) = -val z.2) :
    cval val (o.conj z) = (starRingEnd ℂ) (cval val z) :=
  Complex.ext rfl h

section
variable {V : Type} (num : Numerics V) {N : Nat} {x : Fin N → V} {y : Fin N → ℝ}
  (hx : ArisesPhase num.toNumOps N x) (hxy : ∀ n, |num.val (x n) - y n| ≤ num.epsArg)
include hx hxy

/-- A bin of the spectrum is off by `N` phase errors and one transform error. -/
theorem spectrumAt_close {i : Nat} (hN : 0 < N) (hi : i < specLen N) :
    ‖cval num.val (spectrumAt num.toNumOps N x i) - cval id (spectrumAt exactOps N y i)‖ ≤ N * num.epsArg + num.epsFft N := by
  rw [cval_spectrumAt_exact y hi, spectrumAt, dif_pos hi]
  calc _ ≤ _ := norm_sub_le_norm_sub_add_norm_sub _ (dftExact N (fun n => num.val (x n)) i) _
    _ ≤ num.epsFft N + N * num.epsArg := add_le_add (num.rfft_accuracy N hN x hx ⟨i, hi⟩) (dftExact_close hxy i)
    _ = _ := add_comm _ _

theorem maskedAt_close (k : Fin N) :
    ‖cval num.val (maskedAt num.toNumOps N x k) - cval id (maskedAt exactOps N y k)‖ ≤
      if binSource N (cutoffOf N) k.val ≠ .zero then N * num.epsArg + num.epsFft N else 0 := by
  have hbound : ∀ {i}, 1 ≤ i ∧ i < cutoffOf N → i < specLen N := fun h => h.2.trans_le (cutoff_le_specLen N)
  rw [maskedAt, maskedAt]
  cases hsrc : binSource N (cutoffOf N) k.val with
  | pass i =>
    have hi := hbound (passband_of_binSource (.inl hsrc))
    rw [maskBin_of_pass hsrc, maskBin_of_pass hsrc, if_pos nofun]
    exact spectrumAt_close num hx hxy k.pos hi
  | mirror i =>
    have hi := hbound (passband_of_binSource (.inr hsrc))
    have hneg : num.val (num.neg (spectrumAt num.toNumOps N x i).2) = -num.val (spectrumAt num.toNumOps N x i).2 := by
      rw [spectrumAt, dif_pos hi]
      exact num.neg_exact N k.pos x hx ⟨i, hi⟩
    rw [maskBin_of_mirror hsrc, maskBin_of_mirror hsrc, if_pos nofun, cval_conj hneg, cval_conj (o := exactOps) (val := id) rfl,
      ← map_sub, RCLike.norm_conj]
    exact spectrumAt_close num hx hxy k.pos hi
  | zero =>
    have hzero : cval num.val num.czero = cval id exactOps.czero := Complex.ext num.val_zero num.val_zero
    rw [maskBin_of_zero hsrc, maskBin_of_zero hsrc, hzero, sub_self, norm_zero, if_neg fun h => h rfl]

/-- The bins kept, and the inverse transform's own error (log entry 24). -/
theorem filteredAt_close (n : Fin N) :
    |num.val (filteredAt num.toNumOps N x n) - filteredAt exactOps N y n| ≤
      2 * ((cutoffOf N - 1 : Nat) : ℝ) * (N * num.epsArg + num.epsFft N) + num.epsIfft N := by
  have hinverse := num.irfft_accuracy N n.pos x hx n
  have hbins := idftExact_close (maskedAt_close num hx hxy) n.val
  rw [sum_bins_kept] at hbins
  calc _ ≤ _ := abs_sub_le _ (idftExact N (fun k => cval num.val (maskedAt num.toNumOps N x k)) n.val) _
    _ ≤ num.epsIfft N + _ := add_le_add hinverse hbins
    _ = _ := add_comm _ _

/-- What `scale` truncates is within the accumulated error of the exact scaled value. -/
theorem scale_filteredAt_close (n : Fin N) :
    ∃ w : ℝ, |w - filteredAt exactOps N y n * (ampScale : ℝ) / N| ≤ accumulatedError num N ∧
      num.scale N (filteredAt num.toNumOps N x n) = truncReal w := by
  obtain ⟨w, hw, hscale⟩ := num.scale_accuracy N n.pos x hx n
  refine ⟨w, ?_, hscale⟩
  have hgain : |num.val (filteredAt num.toNumOps N x n) * (ampScale : ℝ) / N - filteredAt exactOps N y n * (ampScale : ℝ) / N| ≤
      (2 * ((cutoffOf N - 1 : Nat) : ℝ) * (N * num.epsArg + num.epsFft N) + num.epsIfft N) * (ampScale : ℝ) / N := by
    rw [← sub_div, ← sub_mul, abs_div, abs_mul, Nat.abs_cast, Nat.abs_cast]
    gcongr
    exact filteredAt_close num hx hxy n
  calc _ ≤ _ := abs_sub_le w (num.val (filteredAt num.toNumOps N x n) * (ampScale : ℝ) / N) _
    _ ≤ num.epsScale N + _ := add_le_add hw hgain
    _ = accumulatedError num N := add_comm _ _

end

/-! ## The output samples -/

section
variable {V : Type} (num : Numerics V) {N m : Nat} {bytes : List Byte} {prev : Int × Int}

theorem phases_close (bytes : List Byte) (hprev : InSampleRange prev) :
    List.Forall₂ (fun v x => |num.val v - x| ≤ num.epsArg) (phases num.toNumOps prev (samplesOf bytes))
      (phases exactOps prev (samplesOf bytes)) :=
  (phases_forall₂ num.toNumOps exactOps bytes prev hprev).imp fun _ _ ⟨im, re, hrange, hv, hw⟩ => by
    rw [hv, hw]
    exact num.arg2_accuracy im re hrange

theorem scaledSample_close (hprev : InSampleRange prev) (hN : 1 ≤ N) (hlen : bytes.length = 2 * N) (hm : m < noutOf N) :
    ∃ w : ℝ, |w - exactScaled N (phases exactOps prev (samplesOf bytes)) m| ≤ accumulatedError num N ∧
      scaledSample num.toNumOps N (phases num.toNumOps prev (samplesOf bytes)) m = truncReal w := by
  have hangles := phases_getD num.toNumOps exactOps hlen hprev
  have hexact : exactScaled N (phases exactOps prev (samplesOf bytes)) m = _ * (ampScale : ℝ) / N :=
    congrArg (· * (ampScale : ℝ) / N) (lowPass_getD exactOps _ (decimIndex_bound N m hN hm))
  rw [hexact, scaledSample_eq_scale _ _ hN hm]
  refine scale_filteredAt_close num (fun n => ?_) (fun n => ?_) _
  · obtain ⟨im, re, hrange, hv, -⟩ := hangles n
    exact ⟨im, re, hrange, hv⟩
  · obtain ⟨im, re, hrange, hv, hw⟩ := hangles n
    rw [hv, hw]
    exact num.arg2_accuracy im re hrange

end

/-- Settles O27: the truncated number is within the accumulated error of `v`, and truncation and narrowing keep numbers together. -/
theorem phaseAndSampleAccuracy : Obligations.PhaseAndSampleAccuracy := by
  rintro V num p q bytes _ _ rfl rfl
  have hprev : InSampleRange (component p, component q) := ⟨component_range p, component_range q⟩
  refine ⟨phases_close num bytes hprev, fun N m hN hlen hm => ?_⟩
  obtain ⟨w, hw, hsample⟩ := scaledSample_close num hprev hN hlen hm
  rw [chunkSamples_getElem? _ _ hm, chunkSamples_getElem? _ _ hm, hsample]
  refine ⟨⟨w, hw, rfl⟩, fun hclear => ?_, fun hsmall => ?_⟩
  · have htrunc := truncReal_eq_of_clear hclear hw
    exact ⟨htrunc, congrArg (some ∘ narrow) htrunc⟩
  · have hunit := truncReal_close (hw.trans hsmall)
    exact ⟨hunit, _, _, rfl, rfl, narrow_toInt_close hunit⟩

end Sys2Proof.Machine

/-! The host port during a run: every write is refused, and a read only returns a value (60_exceptions R265, R270). -/

namespace Sys2Proof.Machine

/-- A host write of any word to any register is refused where neither INIT nor RUN is taken (40_init R127, 44_driver R218). -/
theorem step_of_write_outside_setup {s : State} {reg : Nat} {w : Word} {rest : List Input}
    (hin : s.inputs = .ctlWrite reg w :: rest) (hidle : s.st ≠ .idle) (hready : s.st ≠ .ready) :
    step s = .next ({ s with inputs := rest } : State).refuseAccess := by
  by_cases hlegal : reg = 0 ∧ ∃ i, decodeCommand w = .ok i
  · obtain ⟨rfl, i, hdec⟩ := hlegal
    obtain ⟨hinit, hrun⟩ := commandsRefusedInOtherStates
    rw [step_of_command hin hdec]
    obtain ⟨len, rfl⟩ | rfl := decodeCommand_ok hdec
    · exact hinit len { s with inputs := rest } hidle
    · exact hrun { s with inputs := rest } hready
  · refine step_of_refused_write hin fun hreg => ?_
    cases hdec : decodeCommand w with
    | error e => exact ⟨e, rfl⟩
    | ok i => exact absurd ⟨hreg, i, hdec⟩ hlegal

/-- Settles O55: in RUNNING a write is a refused access, and a read ends in the state of `readTurn`. -/
theorem hostCannotDisturbRun : Obligations.HostCannotDisturbRun := by
  rintro s i rest hrun hin (⟨reg, w, rfl⟩ | ⟨reg, rfl⟩)
  · have hrefused := step_of_write_outside_setup hin (by simp [hrun]) (by simp [hrun])
    exact ⟨true, s.hostData, hrefused⟩
  · exact ⟨s.cmdErr || readRefused reg, readReg { s with inputs := rest } reg, step_of_read hin⟩

end Sys2Proof.Machine

/-! Reset in any state, and what an EMIT or a FETCH that it interrupts leaves with the ports (70_reset R300, 93 U7). -/

namespace Sys2Proof.Machine

/-! ## The ports after an interrupted operation -/

theorem resumedSource_of_not_fetch {s : State} (resumed : List FillAnswer)
    (h : ¬(s.st = .running ∧ s.stage = opcode .fetch)) : resumedSource s resumed = s.source :=
  if_neg h

/-- Where OBUF is written, the chunk under way is all of it, and the sink has taken the first `sent` of its bytes. -/
theorem interruptedBytes_of_written {s : State} {b : Buffers} {out : List Sample} (sent : Nat) (hrun : s.st = .running)
    (hcode : s.stage = opcode .emit) (hb : s.bufs = some b) (hobuf : b.obuf = out.map some)
    (hlen : out.length = s.noutReg.toNat) : interruptedBytes s sent = (serialise out).take sent := by
  have hchunk : (b.obuf.take s.noutReg.toNat).filterMap id = out := by
    rw [hobuf, ← hlen, ← List.map_take, List.take_length, List.filterMap_map]
    exact List.filterMap_some
  rw [interruptedBytes, if_pos ⟨hrun, hcode⟩, hb]
  exact congrArg (fun chunk => (serialise chunk).take sent) hchunk

/-! ## Reset -/

/-- Settles O10: the step is `takeReset`, which leaves to the ports what the interrupted operation allows. -/
theorem resetFromAnyState : Obligations.ResetFromAnyState := by
  intro s sent resumed rest hin
  have hstep : step s = .next (({ s with inputs := rest } : State).takeReset sent resumed) := step_of_reset hin
  exact ⟨interruptedBytes s sent, resumedSource s resumed, hstep, not_imp_comm.1 emit_of_interruptedBytes_ne_nil,
    resumedSource_of_not_fetch resumed, fun _ _ => interruptedBytes_of_written sent⟩

end Sys2Proof.Machine
